-- ==== Sys2Proof/Word.lean ====
section
/-! DEFINITION. The widths of the core: bytes, 12-bit addresses, 16-bit instruction words, register indices. -/

namespace Sys2Proof

/-- An 8-bit value: a general register, a timer, a byte of `Mem` (R7, R10, R21, R30). -/
abbrev Byte := BitVec 8

/-- A 12-bit byte address: `I`, `PC`, a stack entry, an index into `Mem` (R12, R13, R17, R30). -/
abbrev Addr := BitVec 12

/-- A 16-bit instruction word `w = l*256 + r` (R7, R50). -/
abbrev Word := BitVec 16

/-- A 4-bit field of a word that names no register: the row count `n`, or a nibble the decoder ignores (R51). -/
abbrev Nibble := BitVec 4

/-- The index of a general register, `0..15` (R10). -/
abbrev RegIx := Fin 16

/-- A key code, `0..15` (R6, R135). -/
abbrev KeyCode := Fin 16

/-- The index of `VF`, the 16th general register (R10, R11). -/
abbrev flagIx : RegIx := 15

end Sys2Proof
end

