-- ==== Sys2Proof/Syntax.lean ====
section
/-! DEFINITION. The instructions: one constructor for each row of spec/opcode_table.json (rules R53, R55, R56). -/

namespace Sys2Proof

/-- The decoder's output: the variant and its fields (R51, R52, R53). A nibble the decoder does not examine and the
instruction ignores (R53, R59) is kept as a field, so that no bit of the word is lost (log entry 12). -/
inductive Instr where
  /-- `00E0`, row 1; `x` is ignored. -/
  | cls (x : Nibble)
  /-- `00EE`, row 2; `x` is ignored. -/
  | ret (x : Nibble)
  /-- `0nnn`, row 3; `nnn` is decoded and not used. -/
  | sys (nnn : Addr)
  /-- `1nnn`, row 4. -/
  | jp (nnn : Addr)
  /-- `2nnn`, row 5. -/
  | call (nnn : Addr)
  /-- `3xkk`, row 6. -/
  | seImm (x : RegIx) (kk : Byte)
  /-- `4xkk`, row 7. -/
  | sneImm (x : RegIx) (kk : Byte)
  /-- `5xy0`, row 8; `n` is ignored. -/
  | seReg (x y : RegIx) (n : Nibble)
  /-- `6xkk`, row 9. -/
  | ldImm (x : RegIx) (kk : Byte)
  /-- `7xkk`, row 10. -/
  | addImm (x : RegIx) (kk : Byte)
  /-- `8xy0`, row 11. -/
  | ldReg (x y : RegIx)
  /-- `8xy1`, row 12. -/
  | orReg (x y : RegIx)
  /-- `8xy2`, row 13. -/
  | andReg (x y : RegIx)
  /-- `8xy3`, row 14. -/
  | xorReg (x y : RegIx)
  /-- `8xy4`, row 15. -/
  | addReg (x y : RegIx)
  /-- `8xy5`, row 16. -/
  | sub (x y : RegIx)
  /-- `8xy6`, row 17; `y` is ignored. -/
  | shr (x y : RegIx)
  /-- `8xy7`, row 18. -/
  | subn (x y : RegIx)
  /-- `8xyE`, row 19; `y` is ignored. -/
  | shl (x y : RegIx)
  /-- `9xy0`, row 20; `n` is ignored. -/
  | sneReg (x y : RegIx) (n : Nibble)
  /-- `Annn`, row 21. -/
  | ldI (nnn : Addr)
  /-- `Bnnn`, row 22. -/
  | jpV0 (nnn : Addr)
  /-- `Cxkk`, row 23. -/
  | rnd (x : RegIx) (kk : Byte)
  /-- `Dxyn`, row 24. -/
  | drw (x y : RegIx) (n : Nibble)
  /-- `Ex9E`, row 25. -/
  | skp (x : RegIx)
  /-- `ExA1`, row 26. -/
  | sknp (x : RegIx)
  /-- `Fx07`, row 27. -/
  | ldXDt (x : RegIx)
  /-- `Fx0A`, row 28. -/
  | ldXK (x : RegIx)
  /-- `Fx15`, row 29. -/
  | ldDtX (x : RegIx)
  /-- `Fx18`, row 30. -/
  | ldStX (x : RegIx)
  /-- `Fx1E`, row 31. -/
  | addI (x : RegIx)
  /-- `Fx29`, row 32. -/
  | ldF (x : RegIx)
  /-- `Fx33`, row 33. -/
  | ldB (x : RegIx)
  /-- `Fx55`, row 34. -/
  | stRegs (x : RegIx)
  /-- `Fx65`, row 35. -/
  | ldRegs (x : RegIx)
  /-- `Unmapped` of family 8: `n` is an unused sub-selector (R56). -/
  | unmapped8 (x y : RegIx) (n : Nibble)
  /-- `Unmapped` of family E: `kk` is an unused sub-selector (R56). -/
  | unmappedE (x : RegIx) (kk : Byte)
  /-- `Unmapped` of family F: `kk` is an unused sub-selector (R56). -/
  | unmappedF (x : RegIx) (kk : Byte)
  deriving DecidableEq, Repr

/-- The 36 variants of R53 and R55: the 35 defined ones and `Unmapped`, by the names of
spec/opcode_table.json's column "variant". -/
inductive Variant where
  | cls | ret | sys | jp | call | seImm | sneImm | seReg | ldImm | addImm
  | ldReg | orReg | andReg | xorReg | addReg | sub | shr | subn | shl | sneReg
  | ldI | jpV0 | rnd | drw | skp | sknp | ldXDt | ldXK | ldDtX | ldStX
  | addI | ldF | ldB | stRegs | ldRegs | unmapped
  deriving DecidableEq, Repr

/-- The variant an instruction belongs to: three constructors of `Instr` are the one variant `Unmapped` (R56). -/
def Instr.variant : Instr → Variant
  | .cls _ => .cls
  | .ret _ => .ret
  | .sys _ => .sys
  | .jp _ => .jp
  | .call _ => .call
  | .seImm _ _ => .seImm
  | .sneImm _ _ => .sneImm
  | .seReg _ _ _ => .seReg
  | .ldImm _ _ => .ldImm
  | .addImm _ _ => .addImm
  | .ldReg _ _ => .ldReg
  | .orReg _ _ => .orReg
  | .andReg _ _ => .andReg
  | .xorReg _ _ => .xorReg
  | .addReg _ _ => .addReg
  | .sub _ _ => .sub
  | .shr _ _ => .shr
  | .subn _ _ => .subn
  | .shl _ _ => .shl
  | .sneReg _ _ _ => .sneReg
  | .ldI _ => .ldI
  | .jpV0 _ => .jpV0
  | .rnd _ _ => .rnd
  | .drw _ _ _ => .drw
  | .skp _ => .skp
  | .sknp _ => .sknp
  | .ldXDt _ => .ldXDt
  | .ldXK _ => .ldXK
  | .ldDtX _ => .ldDtX
  | .ldStX _ => .ldStX
  | .addI _ => .addI
  | .ldF _ => .ldF
  | .ldB _ => .ldB
  | .stRegs _ => .stRegs
  | .ldRegs _ => .ldRegs
  | .unmapped8 _ _ _ => .unmapped
  | .unmappedE _ _ => .unmapped
  | .unmappedF _ _ => .unmapped

end Sys2Proof
end

