-- ==== Sys2Proof/WellFormed.lean ====
section
/-! DEFINITION. Which instructions are the decoding of a word: a fallback row never holds a sub-selector of a defined
row (rules R53, R56). -/

namespace Sys2Proof

/-- The second bytes of family 0 that select `CLS` and `RET` (R53). -/
def isSub0 (kk : Byte) : Bool := kk == 0xE0 || kk == 0xEE

/-- The low nibbles of family 8 that select a defined variant (R53). -/
def isSub8 (n : Nibble) : Bool := n.ult 8 || n == 0xE

/-- The second bytes of family E that select a defined variant (R53). -/
def isSubE (kk : Byte) : Bool := kk == 0x9E || kk == 0xA1

/-- The second bytes of family F that select a defined variant (R53). -/
def isSubF (kk : Byte) : Bool :=
  kk == 0x07 || kk == 0x0A || kk == 0x15 || kk == 0x18 || kk == 0x1E ||
  kk == 0x29 || kk == 0x33 || kk == 0x55 || kk == 0x65

/-- An instruction is well formed when some word decodes to it: `0nnn` has a second byte other than `0xE0`, `0xEE`
(R70), and an `Unmapped` instruction has an unrecognised sub-selector (R56). Every other combination of fields is the
decoding of a word (R52). -/
def Instr.wellFormed : Instr → Bool
  | .cls _ => true
  | .ret _ => true
  | .sys nnn => !isSub0 (nnn.extractLsb' 0 8)
  | .jp _ => true
  | .call _ => true
  | .seImm _ _ => true
  | .sneImm _ _ => true
  | .seReg _ _ _ => true
  | .ldImm _ _ => true
  | .addImm _ _ => true
  | .ldReg _ _ => true
  | .orReg _ _ => true
  | .andReg _ _ => true
  | .xorReg _ _ => true
  | .addReg _ _ => true
  | .sub _ _ => true
  | .shr _ _ => true
  | .subn _ _ => true
  | .shl _ _ => true
  | .sneReg _ _ _ => true
  | .ldI _ => true
  | .jpV0 _ => true
  | .rnd _ _ => true
  | .drw _ _ _ => true
  | .skp _ => true
  | .sknp _ => true
  | .ldXDt _ => true
  | .ldXK _ => true
  | .ldDtX _ => true
  | .ldStX _ => true
  | .addI _ => true
  | .ldF _ => true
  | .ldB _ => true
  | .stRegs _ => true
  | .ldRegs _ => true
  | .unmapped8 _ _ n => !isSub8 n
  | .unmappedE _ kk => !isSubE kk
  | .unmappedF _ kk => !isSubF kk

/-- The canonical spelling of the words that §4.1 and the labels of §4.2 read differently (D1, U1): the unexamined
nibble of `00E0`, `00EE`, `5xy0`, `9xy0` is 0. The `y` of `8xy6` and `8xyE` is no such nibble (R59). -/
def Instr.canonical : Instr → Bool
  | .cls x => x == 0
  | .ret x => x == 0
  | .sys _ => true
  | .jp _ => true
  | .call _ => true
  | .seImm _ _ => true
  | .sneImm _ _ => true
  | .seReg _ _ n => n == 0
  | .ldImm _ _ => true
  | .addImm _ _ => true
  | .ldReg _ _ => true
  | .orReg _ _ => true
  | .andReg _ _ => true
  | .xorReg _ _ => true
  | .addReg _ _ => true
  | .sub _ _ => true
  | .shr _ _ => true
  | .subn _ _ => true
  | .shl _ _ => true
  | .sneReg _ _ n => n == 0
  | .ldI _ => true
  | .jpV0 _ => true
  | .rnd _ _ => true
  | .drw _ _ _ => true
  | .skp _ => true
  | .sknp _ => true
  | .ldXDt _ => true
  | .ldXK _ => true
  | .ldDtX _ => true
  | .ldStX _ => true
  | .addI _ => true
  | .ldF _ => true
  | .ldB _ => true
  | .stRegs _ => true
  | .ldRegs _ => true
  | .unmapped8 _ _ _ => true
  | .unmappedE _ _ => true
  | .unmappedF _ _ => true

end Sys2Proof
end

