-- ==== Sys2Proof/Decode.lean ====
section
/-! DEFINITION. Fields of a word, the decoder (rules R51 to R53), the encoder, and the opcode map (R55, R56) as data. -/

namespace Sys2Proof

/-! ### Byte order (R31) and fields (R51) -/

/-- `w = l*256 + r`: `l` is the byte at the lower address (R31). -/
def wordOfBytes (l r : Byte) : Word := l ++ r

/-- The two bytes of a word in memory order: `l`, then `r` (R31). -/
def bytesOfWord (w : Word) : List Byte := [w.extractLsb' 8 8, w.extractLsb' 0 8]

/-- `family = w[15:12]`. -/
def familyOf (w : Word) : Nibble := w.extractLsb' 12 4

/-- The bits `w[11:8]`. -/
def xBits (w : Word) : Nibble := w.extractLsb' 8 4

/-- `x = w[11:8]` as a register index. -/
def xOf (w : Word) : RegIx := (xBits w).toFin

/-- `y = w[7:4]` as a register index. -/
def yOf (w : Word) : RegIx := (w.extractLsb' 4 4).toFin

/-- `n = w[3:0]`. -/
def nOf (w : Word) : Nibble := w.extractLsb' 0 4

/-- `kk = w[7:0]`. -/
def kkOf (w : Word) : Byte := w.extractLsb' 0 8

/-- `nnn = w[11:0]`. -/
def nnnOf (w : Word) : Addr := w.extractLsb' 0 12

/-! ### The decode function (R52, R53) -/

/-- Family 0 dispatches on the whole second byte; the nibble `x` is not examined (R53, D1). -/
def decode0 (w : Word) : Instr :=
  if kkOf w = 0xE0 then .cls (xBits w)
  else if kkOf w = 0xEE then .ret (xBits w)
  else .sys (nnnOf w)

/-- Family 8 dispatches on the low nibble (R53). -/
def decode8 (w : Word) : Instr :=
  match (nOf w).toNat with
  | 0x0 => .ldReg (xOf w) (yOf w)
  | 0x1 => .orReg (xOf w) (yOf w)
  | 0x2 => .andReg (xOf w) (yOf w)
  | 0x3 => .xorReg (xOf w) (yOf w)
  | 0x4 => .addReg (xOf w) (yOf w)
  | 0x5 => .sub (xOf w) (yOf w)
  | 0x6 => .shr (xOf w) (yOf w)
  | 0x7 => .subn (xOf w) (yOf w)
  | 0xE => .shl (xOf w) (yOf w)
  | _ => .unmapped8 (xOf w) (yOf w) (nOf w)

/-- Family E dispatches on the whole second byte (R53). -/
def decodeE (w : Word) : Instr :=
  if kkOf w = 0x9E then .skp (xOf w)
  else if kkOf w = 0xA1 then .sknp (xOf w)
  else .unmappedE (xOf w) (kkOf w)

/-- Family F dispatches on the whole second byte (R53). -/
def decodeF (w : Word) : Instr :=
  match (kkOf w).toNat with
  | 0x07 => .ldXDt (xOf w)
  | 0x0A => .ldXK (xOf w)
  | 0x15 => .ldDtX (xOf w)
  | 0x18 => .ldStX (xOf w)
  | 0x1E => .addI (xOf w)
  | 0x29 => .ldF (xOf w)
  | 0x33 => .ldB (xOf w)
  | 0x55 => .stRegs (xOf w)
  | 0x65 => .ldRegs (xOf w)
  | _ => .unmappedF (xOf w) (kkOf w)

/-- `Decode`: total and pure, first by family, then by sub-selector in families 0, 8, E, F (R52, R53). The last arm is
family F, the only one left. -/
def decode (w : Word) : Instr :=
  match (familyOf w).toNat with
  | 0x0 => decode0 w
  | 0x1 => .jp (nnnOf w)
  | 0x2 => .call (nnnOf w)
  | 0x3 => .seImm (xOf w) (kkOf w)
  | 0x4 => .sneImm (xOf w) (kkOf w)
  | 0x5 => .seReg (xOf w) (yOf w) (nOf w)
  | 0x6 => .ldImm (xOf w) (kkOf w)
  | 0x7 => .addImm (xOf w) (kkOf w)
  | 0x8 => decode8 w
  | 0x9 => .sneReg (xOf w) (yOf w) (nOf w)
  | 0xA => .ldI (nnnOf w)
  | 0xB => .jpV0 (nnnOf w)
  | 0xC => .rnd (xOf w) (kkOf w)
  | 0xD => .drw (xOf w) (yOf w) (nOf w)
  | 0xE => decodeE w
  | _ => decodeF w

/-- Why a byte sequence is no instruction: the only way is to be shorter than a word (R50, R59: every word decodes). -/
inductive DecodeError where
  /-- Fewer than two bytes are left. -/
  | truncated
  deriving DecidableEq, Repr

/-- What decoding the front of a byte sequence gives. -/
inductive Decoded where
  /-- An instruction, and the bytes after it. -/
  | instr (i : Instr) (rest : List Byte)
  /-- No instruction, and why. -/
  | rejected (e : DecodeError)
  deriving DecidableEq, Repr

/-- Decode the first word of a byte sequence, big-endian (R31, R50, R60). -/
def decodeBytes : List Byte → Decoded
  | l :: r :: rest => .instr (decode (wordOfBytes l r)) rest
  | _ => .rejected .truncated

/-! ### The encoder -/

/-- The 4 bits of a register index. -/
def regBits (x : RegIx) : Nibble := BitVec.ofFin x

/-- Format `NNN` (R54). -/
def wordNNN (family : Nibble) (nnn : Addr) : Word := family ++ nnn

/-- Formats `XKK`, `XSS` and `SYS0` (R54): family, a nibble, a second byte. -/
def wordXKK (family x : Nibble) (kk : Byte) : Word := family ++ x ++ kk

/-- Formats `XY` and `XYN` (R54). -/
def wordXYN (family x y n : Nibble) : Word := family ++ x ++ y ++ n

/-- The word of an instruction, from the table of R55 and R56 and the formats of R54. -/
def encode : Instr → Word
  | .cls x => wordXKK 0x0 x 0xE0
  | .ret x => wordXKK 0x0 x 0xEE
  | .sys nnn => wordNNN 0x0 nnn
  | .jp nnn => wordNNN 0x1 nnn
  | .call nnn => wordNNN 0x2 nnn
  | .seImm x kk => wordXKK 0x3 (regBits x) kk
  | .sneImm x kk => wordXKK 0x4 (regBits x) kk
  | .seReg x y n => wordXYN 0x5 (regBits x) (regBits y) n
  | .ldImm x kk => wordXKK 0x6 (regBits x) kk
  | .addImm x kk => wordXKK 0x7 (regBits x) kk
  | .ldReg x y => wordXYN 0x8 (regBits x) (regBits y) 0x0
  | .orReg x y => wordXYN 0x8 (regBits x) (regBits y) 0x1
  | .andReg x y => wordXYN 0x8 (regBits x) (regBits y) 0x2
  | .xorReg x y => wordXYN 0x8 (regBits x) (regBits y) 0x3
  | .addReg x y => wordXYN 0x8 (regBits x) (regBits y) 0x4
  | .sub x y => wordXYN 0x8 (regBits x) (regBits y) 0x5
  | .shr x y => wordXYN 0x8 (regBits x) (regBits y) 0x6
  | .subn x y => wordXYN 0x8 (regBits x) (regBits y) 0x7
  | .shl x y => wordXYN 0x8 (regBits x) (regBits y) 0xE
  | .sneReg x y n => wordXYN 0x9 (regBits x) (regBits y) n
  | .ldI nnn => wordNNN 0xA nnn
  | .jpV0 nnn => wordNNN 0xB nnn
  | .rnd x kk => wordXKK 0xC (regBits x) kk
  | .drw x y n => wordXYN 0xD (regBits x) (regBits y) n
  | .skp x => wordXKK 0xE (regBits x) 0x9E
  | .sknp x => wordXKK 0xE (regBits x) 0xA1
  | .ldXDt x => wordXKK 0xF (regBits x) 0x07
  | .ldXK x => wordXKK 0xF (regBits x) 0x0A
  | .ldDtX x => wordXKK 0xF (regBits x) 0x15
  | .ldStX x => wordXKK 0xF (regBits x) 0x18
  | .addI x => wordXKK 0xF (regBits x) 0x1E
  | .ldF x => wordXKK 0xF (regBits x) 0x29
  | .ldB x => wordXKK 0xF (regBits x) 0x33
  | .stRegs x => wordXKK 0xF (regBits x) 0x55
  | .ldRegs x => wordXKK 0xF (regBits x) 0x65
  | .unmapped8 x y n => wordXYN 0x8 (regBits x) (regBits y) n
  | .unmappedE x kk => wordXKK 0xE (regBits x) kk
  | .unmappedF x kk => wordXKK 0xF (regBits x) kk

/-! ### The opcode map as data (R55, R56) -/

/-- A row of the opcode map: a word selects the matching row of largest priority (R55). -/
structure OpcodeRow where
  /-- The variant the row selects. -/
  variant : Variant
  /-- The bits under the mask. -/
  bits : Word
  /-- The examined bits. -/
  mask : Word
  /-- 2 for rows with a sub-selector, 1 for family-only rows and fallbacks. -/
  priority : Nat
  deriving DecidableEq, Repr

/-- The word `w` selects the row when `w & mask = match` (R55). -/
def OpcodeRow.selects (row : OpcodeRow) (w : Word) : Bool := w &&& row.mask == row.bits

/-- Rows 1 to 10 of R55: families 0 to 7. -/
def opcodeRows0to7 : List OpcodeRow :=
  [⟨.cls, 0x00E0, 0xF0FF, 2⟩, ⟨.ret, 0x00EE, 0xF0FF, 2⟩, ⟨.sys, 0x0000, 0xF000, 1⟩,
   ⟨.jp, 0x1000, 0xF000, 1⟩, ⟨.call, 0x2000, 0xF000, 1⟩, ⟨.seImm, 0x3000, 0xF000, 1⟩,
   ⟨.sneImm, 0x4000, 0xF000, 1⟩, ⟨.seReg, 0x5000, 0xF000, 1⟩, ⟨.ldImm, 0x6000, 0xF000, 1⟩,
   ⟨.addImm, 0x7000, 0xF000, 1⟩]

/-- Rows 11 to 19 of R55 and the fallback of family 8 (R56). -/
def opcodeRows8 : List OpcodeRow :=
  [⟨.ldReg, 0x8000, 0xF00F, 2⟩, ⟨.orReg, 0x8001, 0xF00F, 2⟩, ⟨.andReg, 0x8002, 0xF00F, 2⟩,
   ⟨.xorReg, 0x8003, 0xF00F, 2⟩, ⟨.addReg, 0x8004, 0xF00F, 2⟩, ⟨.sub, 0x8005, 0xF00F, 2⟩,
   ⟨.shr, 0x8006, 0xF00F, 2⟩, ⟨.subn, 0x8007, 0xF00F, 2⟩, ⟨.shl, 0x800E, 0xF00F, 2⟩,
   ⟨.unmapped, 0x8000, 0xF000, 1⟩]

/-- Rows 20 to 24 of R55: families 9 to D. -/
def opcodeRows9toD : List OpcodeRow :=
  [⟨.sneReg, 0x9000, 0xF000, 1⟩, ⟨.ldI, 0xA000, 0xF000, 1⟩, ⟨.jpV0, 0xB000, 0xF000, 1⟩,
   ⟨.rnd, 0xC000, 0xF000, 1⟩, ⟨.drw, 0xD000, 0xF000, 1⟩]

/-- Rows 25 to 35 of R55 and the fallbacks of families E and F (R56). -/
def opcodeRowsEF : List OpcodeRow :=
  [⟨.skp, 0xE09E, 0xF0FF, 2⟩, ⟨.sknp, 0xE0A1, 0xF0FF, 2⟩, ⟨.unmapped, 0xE000, 0xF000, 1⟩,
   ⟨.ldXDt, 0xF007, 0xF0FF, 2⟩, ⟨.ldXK, 0xF00A, 0xF0FF, 2⟩, ⟨.ldDtX, 0xF015, 0xF0FF, 2⟩,
   ⟨.ldStX, 0xF018, 0xF0FF, 2⟩, ⟨.addI, 0xF01E, 0xF0FF, 2⟩, ⟨.ldF, 0xF029, 0xF0FF, 2⟩,
   ⟨.ldB, 0xF033, 0xF0FF, 2⟩, ⟨.stRegs, 0xF055, 0xF0FF, 2⟩, ⟨.ldRegs, 0xF065, 0xF0FF, 2⟩,
   ⟨.unmapped, 0xF000, 0xF000, 1⟩]

/-- The 38 rows of spec/opcode_table.json. -/
def opcodeTable : List OpcodeRow := opcodeRows0to7 ++ opcodeRows8 ++ opcodeRows9toD ++ opcodeRowsEF

/-! ### The host's question about a row of the table -/

/-- The instruction the decoder reads from a word given as a number, bit 0 the least significant bit of the one word
an instruction has (R50): its two bytes are laid out big-endian (R31) and given to the byte decoder. -/
def decodeTableWord (nbits w : Nat) : Option Instr :=
  match decodeBytes (bytesOfWord (BitVec.ofNat 16 (w % 2 ^ nbits))) with
  | .instr i _ => some i
  | .rejected _ => none

end Sys2Proof
end

