-- ==== Sys2Proof/Config.lean ====
section
/-! DEFINITION. The parameters of the core (rule R4) and the free values the model leaves open. -/

namespace Sys2Proof.Config

/-- `MEM_SIZE` (R4): the bytes of `Mem`. -/
def memSize : Nat := 4096

/-- `MEM_START` (R4): where a program is loaded, and the reset value of `PC`. -/
def memStart : Nat := 0x200

/-- `STACK_DEPTH` (R4). -/
def stackDepth : Nat := 16

/-- `INSN_BYTES` (R4). -/
def insnBytes : Nat := 2

/-- `TIMER_HZ` (R4): no rule of the model depends on the number (R172). -/
def timerHz : Nat := 60

/-- `KeyCodePolicy` (R4): what `Ex9E`, `ExA1`, `Fx29` do when `Vx > 15` (D10, D11). -/
inductive KeyCodePolicy where
  /-- The model gives the instruction no meaning in that state. -/
  | refuse
  /-- The code is `V[x] & 0xF`. -/
  | mask4
  deriving DecidableEq, Repr

/-- The OPEN parameters of R4, as plain data: a state carries them and no transaction changes them, so that a
statement about every state is a statement about every value of each parameter. DESIGN CHOICE, log entry 2. -/
structure Params where
  /-- `DISPLAY_REGION_SIZE`: bounds the program length and nothing else (R33, R37). -/
  displayRegionSize : Nat
  /-- `FontAddr(d)` for `d` in `0..15` (R112). -/
  fontAddr : Vector Addr 16
  /-- `KeyCodePolicy`. -/
  keyCodePolicy : KeyCodePolicy
  /-- `DecodeStrict`: refuse the 7710 words of U1 when one is executed. -/
  decodeStrict : Bool
  /-- `RefuseFlagAlias`: refuse the flag-writing ALU variants with `x = 15` (U6). -/
  refuseFlagAlias : Bool
  deriving DecidableEq, Repr

/-- The default `FontAddr(d) = 5*d` (R4, G2: from general knowledge, PRESUMED by the spec itself). -/
def defaultFontAddr : Vector Addr 16 :=
  #v[0, 5, 10, 15, 20, 25, 30, 35, 40, 45, 50, 55, 60, 65, 70, 75]

/-- The defaults of R4. -/
def defaults : Params where
  displayRegionSize := 256
  fontAddr := defaultFontAddr
  keyCodePolicy := .refuse
  decodeStrict := false
  refuseFlagAlias := false

/-- `MAX_PROGRAM_LEN = MEM_SIZE - MEM_START - DISPLAY_REGION_SIZE` (R4, R33). -/
def Params.maxProgramLen (p : Params) : Nat := memSize - memStart - p.displayRegionSize

/-- FREE VALUE: the byte `NextByte()` answers at its `k`-th call for which the host's list holds none (U7, D29).
Nothing constrains it. Log entry 4. -/
opaque freeByte : Nat → Byte

/-- FREE VALUE: the answer of the `k`-th `DrawSprite` call for which the host's list holds none (U8). Log entry 4. -/
opaque freeCollision : Nat → Bool

/-- FREE VALUE: the answer of the `k`-th `IsKeyDown` call for which the host's list holds none (U8). Log entry 4. -/
opaque freeKeyDown : Nat → Bool

end Sys2Proof.Config
end

