-- ==== Sys2Proof/Machine/State.lean ====
section
/-! DEFINITION. The state of the core (10_state.md), the host's side of it that a deterministic step needs, and the
state after reset (R27). -/

namespace Sys2Proof.Machine

open Sys2Proof.Config

/-- The sub-causes of `FetchFault` (R142). -/
inductive FetchCause where
  /-- `PC` is odd. -/
  | misaligned
  /-- `PC` is below `0x200` or at or above `0x200 + LEN`. -/
  | outOfProgram
  deriving DecidableEq, Repr

/-- The faults of a running core, the tag `e` in `Halted(e)` (R23, R142). Taking one is a next state (R144). -/
inductive ExecFault where
  /-- A call with a full stack, raised by `2nnn` only. -/
  | stackOverflow
  /-- A return with an empty stack, raised by `00EE` only. -/
  | stackUnderflow
  /-- The fetch of a `Step` found no word. -/
  | fetchFault (cause : FetchCause)
  deriving DecidableEq, Repr

/-- The engine state `ES` (R23). -/
inductive Engine where
  /-- The next `Step` fetches and executes. -/
  | ready
  /-- An `Fx0A` waits for a `KeyEvent`. -/
  | awaitingKey
  /-- A fault has stopped the core; only `Reset` leaves this state. -/
  | halted (e : ExecFault)
  deriving DecidableEq, Repr

/-- Why `Load` builds no program (R38). -/
inductive LoadError where
  /-- The length is odd; checked first (D25). -/
  | oddLength
  /-- The length exceeds `MAX_PROGRAM_LEN`. -/
  | tooLarge
  deriving DecidableEq, Repr

/-- How far the launch order of R162 has come; the model's own field (log entry 6). -/
inductive Phase where
  /-- No `Load` yet (R163). -/
  | noProgram
  /-- `Load` reported an error; execution never starts (R38). -/
  | loadFailed (e : LoadError)
  /-- A program is loaded and no `Reset` has been issued since. -/
  | loaded
  /-- `Load` and `Reset` are done: the rules of the spec hold. -/
  | running
  deriving DecidableEq, Repr

/-- The five transactions by which the host drives the core (R5). A key code is in `0..15` by its type (D16). -/
inductive Transaction where
  | load (rom : List Byte)
  | reset
  | step
  | timerTick
  | keyEvent (k : KeyCode)
  deriving DecidableEq, Repr

/-- The capability calls the core makes (R6), with the arguments it passes. -/
inductive HostCall where
  | clearScreen
  | drawSprite (x y : Byte) (rows : List Byte)
  | isKeyDown (c : KeyCode)
  | nextByte
  deriving DecidableEq, Repr

/-- `Mem` as data: the bytes that differ from what an unlisted address reads as, addresses strictly rising
(`Memory.wf`). -/
abbrev Memory := List Host.Cell

/-- The state of the core and of the host's side of it. -/
structure State where
  /-- `V[0..15]` (R10); `V[15]` is `VF` (R11). -/
  v : Vector Byte 16
  /-- `I` (R12). -/
  ireg : Addr
  /-- `PC` (R13). -/
  pc : Addr
  /-- `S[0..15]` (R17). -/
  stack : Vector Addr 16
  /-- `SP`, the number of entries in use, `0..16` (R18). -/
  sp : Fin 17
  /-- `DT` (R21). -/
  dt : Byte
  /-- `ST` (R22). -/
  st : Byte
  /-- `ES` (R23). -/
  engine : Engine
  /-- `Mem` (R25, R30). -/
  mem : Memory
  /-- `Prog`: word `k` is the word at address `0x200 + 2k` (R24). -/
  prog : List Word
  /-- The parameters of R4; no transaction changes them (log entry 2). -/
  cfg : Params
  /-- The model's own: how far the launch has come (log entry 6). -/
  phase : Phase
  /-- The model's own: the transactions the host issues next, first one first (log entry 5). -/
  agenda : List Transaction
  /-- The model's own: the capability calls made so far, oldest first (log entry 9). -/
  calls : List HostCall
  /-- The model's own: the host's next answers to `NextByte()` (log entry 4). -/
  entropyIn : List Byte
  /-- The model's own: the host's next answers to `DrawSprite` (log entry 4). -/
  collisionIn : List Bool
  /-- The model's own: the host's next answers to `IsKeyDown` (log entry 4). -/
  keyIn : List Bool
  /-- The model's own: which free value of `Config` answers next when the host's list is empty (log entry 4). -/
  freeIx : Nat
  deriving DecidableEq, Repr

/-- What stops the machine with a fault. The spec's own faults are not here: they are next states (R144). -/
inductive Fault where
  /-- Raised by `KeyEvent` when the engine is `AwaitingKey` and `Prog` holds no word at `PC`, so that there is no
  waiting `Fx0A` whose `x` field could be read (R135). No run reaches such a state (`State.Inv`). Safe: log entry 11. -/
  | noWaitingWord
  deriving DecidableEq, Repr

/-- Where the model gives no meaning. Each but `notModelled` is a "refuse" of the spec's own list U1 to U20. -/
inductive Refusal where
  /-- Raised by `exec` for an instruction without a meaning; no arm does. Safe. -/
  | notModelled (mnemonic : String)
  /-- Raised by every transaction but `Load` before a successful `Load` (U10, R38, R163). Safe: log entry 6. -/
  | noProgram
  /-- Raised by `Step`, `TimerTick`, `KeyEvent` between `Load` and the first `Reset` (U10, R163). Safe: log entry 6. -/
  | notReset
  /-- Raised by a second `Load` in one run (U10, R162). Safe: log entry 6. -/
  | secondLoad
  /-- Raised by `Ex9E`, `ExA1`, `Fx29` with `V[x] > 15` when `KeyCodePolicy` is `refuse` (U3, U4). Safe: log entry 3. -/
  | keyCodeAbove15
  /-- Raised by a `Step` on a non-canonical word of D1 when `DecodeStrict` is on (U1). Safe: log entry 13. -/
  | nonCanonicalWord
  /-- Raised by a `Step` on `8xy4`, `8xy5`, `8xy6`, `8xy7`, `8xyE` with `x = 15` when `RefuseFlagAlias` is on (U6).
  Safe: log entry 18. -/
  | flagAlias
  deriving DecidableEq, Repr

/-- What a step or a meaning answers. -/
abbrev Result := Host.Outcome State Fault Refusal

/-- The machine right after `Reset` (R27, R160), with nothing loaded: every register, `I`, `SP` and the timers 0,
`PC = 0x200`, `ES = Ready`. The stack entries, `Mem`, `Prog`, the parameters and the model's own fields have the
values of log entries 1 to 9. -/
def State.reset : State where
  v := Vector.replicate 16 0
  ireg := 0
  pc := 0x200
  stack := Vector.replicate 16 0
  sp := 0
  dt := 0
  st := 0
  engine := .ready
  mem := []
  prog := []
  cfg := Config.defaults
  phase := .running
  agenda := []
  calls := []
  entropyIn := []
  collisionIn := []
  keyIn := []
  freeIx := 0

end Sys2Proof.Machine
end

