-- ==== Sys2Proof/Machine/Ops.lean ====
section
/-! DEFINITION. The named operations over registers, memory, the stack, the program store and the capabilities, and
taking a fault. -/

namespace Sys2Proof.Machine

open Sys2Proof.Config

/-! ### Registers (R8, R10 to R13, R21 to R23) -/

/-- Read of general register `V[i]`. -/
def State.getV (s : State) (i : RegIx) : Byte := s.v[i]

/-- `V[i] <- b`. -/
def State.setV (s : State) (i : RegIx) (b : Byte) : State := { s with v := s.v.set i b }

/-- Read of `VF`. -/
def State.getVF (s : State) : Byte := s.getV flagIx

/-- `I <- a`; an `Addr` is already reduced modulo 4096 (R12). -/
def State.setI (s : State) (a : Addr) : State := { s with ireg := a }

/-- `pc <- target`; an `Addr` is already reduced modulo 4096 (R8). -/
def State.setPc (s : State) (target : Addr) : State := { s with pc := target }

/-- `DT <- b`. -/
def State.setDt (s : State) (b : Byte) : State := { s with dt := b }

/-- `ST <- b`. -/
def State.setSt (s : State) (b : Byte) : State := { s with st := b }

/-- `ES <- e`. -/
def State.setEngine (s : State) (e : Engine) : State := { s with engine := e }

/-- Replace `Mem`. -/
def State.setMem (s : State) (m : Memory) : State := { s with mem := m }

/-- Replace the host's coming transactions. -/
def State.setAgenda (s : State) (l : List Transaction) : State := { s with agenda := l }

/-- `pc <- (PC + 2) mod 4096`: past the executing instruction (R13, R14, R15). -/
def State.advance (s : State) : State := s.setPc (s.pc + 2)

/-- `pc <- (PC + 4) mod 4096` if the condition holds, else `pc <- (PC + 2) mod 4096`: a skip (R14, R84). -/
def State.skipIf (s : State) (c : Bool) : State := s.setPc (if c then s.pc + 4 else s.pc + 2)

/-! ### Memory (R30, R34, R35, R41, R42) -/

/-- What an address that the memory list does not hold reads as: the model's choice for a byte nothing has written
(DESIGN CHOICE, log entry 1). Every content of `Mem` is some memory list (`Laws.Memory.exists_read_eq`). -/
def unlistedByte : Byte := 0

/-- `wf` from address `lo` on: addresses strictly rising and below 4096, no entry that an unlisted address would read
as. -/
def Memory.wfFrom (lo : Nat) : Memory → Bool
  | [] => true
  | (k, b) :: t => decide (lo ≤ k) && decide (k < memSize) && (b != unlistedByte) && Memory.wfFrom (k + 1) t

/-- The canonical form of a memory: equal contents are equal data. -/
def Memory.wf (m : Memory) : Bool := Memory.wfFrom 0 m

/-- The byte at a cell number; the list is in rising order. -/
def Memory.readAt : Memory → Nat → Byte
  | [], _ => unlistedByte
  | (k, b) :: t, a => if a = k then b else if a < k then unlistedByte else Memory.readAt t a

/-- Put a byte at a cell number, keeping the canonical form. -/
def Memory.writeAt : Memory → Nat → Byte → Memory
  | [], a, b => if b = unlistedByte then [] else [(a, b)]
  | (k, c) :: t, a, b =>
    if a < k then (if b = unlistedByte then (k, c) :: t else (a, b) :: (k, c) :: t)
    else if a = k then (if b = unlistedByte then t else (a, b) :: t)
    else (k, c) :: Memory.writeAt t a b

/-- `MemRead(addr, 1)` (R41). -/
def Memory.read (m : Memory) (a : Addr) : Byte := m.readAt a.toNat

/-- `MemWrite(addr, 1, b)` (R42). -/
def Memory.write (m : Memory) (a : Addr) (b : Byte) : Memory := m.writeAt a.toNat b

/-- `MemWrite` of each byte in turn at ascending addresses, wrapping from `0xFFF` to `0x000` (R34, R35). -/
def Memory.writeBytes (m : Memory) (a : Addr) : List Byte → Memory
  | [] => m
  | b :: bs => Memory.writeBytes (m.write a b) (a + 1) bs

/-- `MemRead` of `n` bytes at ascending addresses, wrapping from `0xFFF` to `0x000` (R34, R35). -/
def Memory.readBytes (m : Memory) (a : Addr) : Nat → List Byte
  | 0 => []
  | n + 1 => m.read a :: Memory.readBytes m (a + 1) n

/-! ### Taking a fault (R144) -/

/-- `raise e`: the instruction is abandoned; the single effect is `ES <- Halted(e)`. No register, `I`, `PC`, `SP`,
stack entry, timer or byte changes, no capability is called, and control goes nowhere (R144, D5). The only way out is
the `Reset` transaction, `State.resetCore` below (R148): there is no return-from-fault instruction. -/
def State.raise (s : State) (e : ExecFault) : State := s.setEngine (.halted e)

/-- The numeric codes of R142 (D22); no instruction reads them. -/
def ExecFault.code : ExecFault → Nat
  | .stackOverflow => 1
  | .stackUnderflow => 2
  | .fetchFault _ => 3

/-- `Reset` (R160): registers, `I`, `SP` and the timers zeroed, `PC = 0x200`, `ES = Ready`. `Mem`, `Prog`, the stack
entries and everything on the host's side stay (R161). -/
def State.resetCore (s : State) : State :=
  { s with
    v := Vector.replicate 16 0
    ireg := 0
    pc := BitVec.ofNat 12 memStart
    sp := 0
    dt := 0
    st := 0
    engine := .ready
    phase := .running }

/-! ### The stack (R18 to R20) -/

/-- `push(a)`: none when `SP = 16` (the caller raises `StackOverflow`), else `S[SP] <- a`, `SP <- SP + 1` (R19). -/
def State.push (s : State) (a : Addr) : Option State :=
  if h : s.sp.val < 16 then
    some { s with stack := s.stack.set s.sp.val a, sp := ⟨s.sp.val + 1, by omega⟩ }
  else none

/-- `pop()`: none when `SP = 0` (the caller raises `StackUnderflow`), else `SP <- SP - 1` and the entry `S[SP]`, which
keeps its content (R20). -/
def State.pop (s : State) : Option (Addr × State) :=
  if h : 0 < s.sp.val then
    some (s.stack[s.sp.val - 1]'(by omega), { s with sp := ⟨s.sp.val - 1, by omega⟩ })
  else none

/-! ### The program store (R24, R38, R40) -/

/-- What a fetch gives. -/
inductive Fetched where
  /-- The word `Prog` holds for the address. -/
  | word (w : Word)
  /-- A fetch fault. -/
  | fault (c : FetchCause)
  deriving DecidableEq, Repr

/-- `Fetch(a)`: `Misaligned` is checked before `OutOfProgram` (R40, R146, D3); the fetch does not read `Mem` (R46). An
even address at or above `0x200 + LEN` is one for which `Prog` has no entry. -/
def fetch (prog : List Word) (a : Addr) : Fetched :=
  if a.toNat % 2 = 1 then .fault .misaligned
  else if a.toNat < memStart then .fault .outOfProgram
  else match prog[(a.toNat - memStart) / insnBytes]? with
    | some w => .word w
    | none => .fault .outOfProgram

/-- `Prog[k] <- rom[2k]*256 + rom[2k+1]` (R38, R31). -/
def wordsOfRom : List Byte → List Word
  | l :: r :: rest => wordOfBytes l r :: wordsOfRom rest
  | _ => []

/-- The check of `Load` (R38): odd length first (D25), then the length bound. -/
def loadCheck (p : Params) (rom : List Byte) : Option LoadError :=
  if rom.length % 2 = 1 then some .oddLength
  else if p.maxProgramLen < rom.length then some .tooLarge
  else none

/-- A program with the word `w` at entry `k`; entries that were missing below `k` are `0x0000`. -/
def placeWord : List Word → Nat → Word → List Word
  | [], 0, w => [w]
  | [], k + 1, w => 0 :: placeWord [] k w
  | _ :: t, 0, w => w :: t
  | h :: t, k + 1, w => h :: placeWord t k w

/-! ### The address map (R33) -/

/-- The ranges of R33. They bound the program's length; no access is treated differently in any of them (R37). -/
inductive Region where
  /-- `0x000 .. 0x1FF`. -/
  | reserved
  /-- The loaded program. -/
  | program
  /-- Between the program and the display region. -/
  | free
  /-- The conceptual display region at the high end. -/
  | display
  deriving DecidableEq, Repr

/-- The range an address lies in, for a program of `len` bytes (R33). -/
def regionOf (p : Params) (len : Nat) (a : Addr) : Region :=
  if a.toNat < memStart then .reserved
  else if a.toNat < memStart + len then .program
  else if a.toNat < memSize - p.displayRegionSize then .free
  else .display

/-! ### Capability calls (R6) -/

/-- Record that the core makes a capability call; the calls are its only output (R6). -/
def State.logCall (s : State) (c : HostCall) : State := { s with calls := s.calls ++ [c] }

/-- `NextByte()`: the host's next byte, else a free value (U7, D29). -/
def State.nextByte (s : State) : Byte × State :=
  match s.entropyIn with
  | b :: rest => (b, { s.logCall .nextByte with entropyIn := rest })
  | [] => (freeByte s.freeIx, { s.logCall .nextByte with freeIx := s.freeIx + 1 })

/-- `DrawSprite(x, y, rows)`: the host's next collision answer, else a free value (U8). -/
def State.drawSprite (s : State) (x y : Byte) (rows : List Byte) : Bool × State :=
  match s.collisionIn with
  | b :: rest => (b, { s.logCall (.drawSprite x y rows) with collisionIn := rest })
  | [] => (freeCollision s.freeIx, { s.logCall (.drawSprite x y rows) with freeIx := s.freeIx + 1 })

/-- `IsKeyDown(c)`: the host's next key answer, else a free value (U8). -/
def State.isKeyDown (s : State) (c : KeyCode) : Bool × State :=
  match s.keyIn with
  | b :: rest => (b, { s.logCall (.isKeyDown c) with keyIn := rest })
  | [] => (freeKeyDown s.freeIx, { s.logCall (.isKeyDown c) with freeIx := s.freeIx + 1 })

/-- `ClearScreen()`: no answer. -/
def State.clearScreen (s : State) : State := s.logCall .clearScreen

end Sys2Proof.Machine
end

