-- ==== Sys2Proof/Machine/Operands.lean ====
section
/-! DEFINITION. The operand forms: widening, effective addresses, key codes and glyph addresses, decimal digits, and
the register runs of `Fx55` and `Fx65`. -/

namespace Sys2Proof.Machine

open Sys2Proof.Config

/-- `zext_12(b)`: an 8-bit register value that enters 12-bit arithmetic (R7, R58). -/
def zext12 (b : Byte) : Addr := b.setWidth 12

/-- Register number `k` (taken modulo 16; the runs of `Fx55` and `Fx65` use `0..15`). -/
def regOfNat (k : Nat) : RegIx := ⟨k % 16, Nat.mod_lt k (by decide)⟩

/-- `c & 0xF`: the low four bits of a byte as a key code or digit, the byte itself up to 15 (R112, R132). -/
def lowCode (b : Byte) : KeyCode := ⟨b.toNat % 16, Nat.mod_lt _ (by decide)⟩

/-- The one addressing mode for data: `(I + k) mod 4096` (R34, R116). -/
def State.dataAddr (s : State) (k : Nat) : Addr := s.ireg + BitVec.ofNat 12 k

/-- The code an 8-bit value names for `Ex9E`, `ExA1`, `Fx29`: itself up to 15; above 15 none under `refuse`, its low 4
bits under `mask4` (R112, R132, R133; D10, D11; log entry 3). -/
def keyCodeOf (p : Params) (b : Byte) : Option KeyCode :=
  if b.toNat ≤ 15 then some (lowCode b)
  else match p.keyCodePolicy with
    | .refuse => none
    | .mask4 => some (lowCode b)

/-- `FontAddr(d)` (R112). -/
def glyphAddr (p : Params) (d : KeyCode) : Addr := p.fontAddr[d]

/-- The three decimal digits of a byte, hundreds first, each a whole byte (R113; the order is D12, G4). -/
def bcdDigits (b : Byte) : List Byte :=
  [BitVec.ofNat 8 (b.toNat / 100), BitVec.ofNat 8 (b.toNat / 10 % 10), BitVec.ofNat 8 (b.toNat % 10)]

/-- `V[0], ..., V[n-1]` for `n` up to 16 (R114). -/
def State.firstRegs (s : State) : Nat → List Byte
  | 0 => []
  | n + 1 => s.firstRegs n ++ [s.getV (regOfNat n)]

/-- `for k in 0 .. n-1: V[k] <- MemRead((I + k) mod 4096, 1)` for `n` up to 16 (R115). -/
def State.loadFirstRegs (s : State) : Nat → State
  | 0 => s
  | n + 1 => (s.loadFirstRegs n).setV (regOfNat n) (s.mem.read (s.dataAddr n))

/-- The sprite rows of `Dxyn`: `n` bytes of `Mem` from `I` on (R131; D9, G3). -/
def State.spriteRows (s : State) (n : Nibble) : List Byte := s.mem.readBytes s.ireg n.toNat

end Sys2Proof.Machine
end

