-- ==== Sys2Proof/Machine/Flags.lean ====
section
/-! DEFINITION. The 8-bit results and the flag values of the ALU and of `Dxyn`: every flag write of rule R11. Results
are computed exactly and narrowed (R7, R102). -/

namespace Sys2Proof.Machine

/-- A flag value: exactly 0 or 1, 8 bits (R11). -/
def flagByte (c : Bool) : Byte := if c then 1 else 0

/-- `(a + b) mod 256` (R92, R97). -/
def addResult (a b : Byte) : Byte := BitVec.ofNat 8 (a.toNat + b.toNat)

/-- 1 if `a + b > 255`, else 0: the carry out (R97). -/
def addCarry (a b : Byte) : Byte := flagByte (decide (a.toNat + b.toNat > 255))

/-- `(a - b) mod 256`: `a - b + 256` when `a < b` (R98, R102). -/
def subResult (a b : Byte) : Byte := BitVec.ofNat 8 (a.toNat + 256 - b.toNat)

/-- 1 if `a >= b`, else 0: 1 means no borrow (R98, R100). -/
def subNotBorrow (a b : Byte) : Byte := flagByte (decide (a.toNat ≥ b.toNat))

/-- `a >> 1`, logical (R99). -/
def shrResult (a : Byte) : Byte := a >>> 1

/-- `a & 1`: the bit shifted out at the right (R99). -/
def shrOut (a : Byte) : Byte := a &&& 1

/-- `(a << 1) mod 256` (R101). -/
def shlResult (a : Byte) : Byte := a <<< 1

/-- `(a >> 7) & 1`: the bit shifted out at the left (R101). -/
def shlOut (a : Byte) : Byte := (a >>> 7) &&& 1

/-- 1 if the Display reports a collision, else 0 (R131, D8). -/
def collisionFlag (c : Bool) : Byte := flagByte c

end Sys2Proof.Machine
end

