-- ==== Sys2Proof/Machine/Alu.lean ====
section
/-! DEFINITION. Register load and 8-bit ALU variants (42_alu.md): `6xkk 7xkk 8xy0` to `8xyE`. Operands are read from
the state before the instruction; the writes happen in the order of the spec's pseudocode, so that the later one stands
when `x = 15` (R90, D6; log entry 18). Every variant ends with `PC + 2` (R104). -/

namespace Sys2Proof.Machine

/-- `6xkk`: `V[x] <- kk` (R91). -/
def execLdImm (x : RegIx) (kk : Byte) (s : State) : Result := .next (s.setV x kk).advance

/-- `7xkk`: `V[x] <- (V[x] + kk) mod 256`, no flag (R92). -/
def execAddImm (x : RegIx) (kk : Byte) (s : State) : Result :=
  .next (s.setV x (addResult (s.getV x) kk)).advance

/-- `8xy0`: `V[x] <- V[y]` (R93). -/
def execLdReg (x y : RegIx) (s : State) : Result := .next (s.setV x (s.getV y)).advance

/-- `8xy1`: `V[x] <- V[x] | V[y]` (R94). -/
def execOrReg (x y : RegIx) (s : State) : Result := .next (s.setV x (s.getV x ||| s.getV y)).advance

/-- `8xy2`: `V[x] <- V[x] & V[y]` (R95). -/
def execAndReg (x y : RegIx) (s : State) : Result := .next (s.setV x (s.getV x &&& s.getV y)).advance

/-- `8xy3`: `V[x] <- V[x] ^ V[y]` (R96). -/
def execXorReg (x y : RegIx) (s : State) : Result := .next (s.setV x (s.getV x ^^^ s.getV y)).advance

/-- Write a result to `V[x]`, then a flag to `VF`: the flag stands when `x = 15` (R90). -/
def State.setResultThenFlag (s : State) (x : RegIx) (r f : Byte) : State := (s.setV x r).setV flagIx f

/-- Write a flag to `VF`, then a result to `V[x]`: the result stands when `x = 15` (R90). -/
def State.setFlagThenResult (s : State) (x : RegIx) (f r : Byte) : State := (s.setV flagIx f).setV x r

/-- `8xy4`: the sum, then the carry (R97). -/
def execAddReg (x y : RegIx) (s : State) : Result :=
  .next (s.setResultThenFlag x (addResult (s.getV x) (s.getV y)) (addCarry (s.getV x) (s.getV y))).advance

/-- `8xy5`: not-borrow, then `(V[x] - V[y]) mod 256` (R98). -/
def execSub (x y : RegIx) (s : State) : Result :=
  .next (s.setFlagThenResult x (subNotBorrow (s.getV x) (s.getV y)) (subResult (s.getV x) (s.getV y))).advance

/-- `8xy6`: the bit shifted out, then `V[x] >> 1`; `y` is ignored (R99). -/
def execShr (x _y : RegIx) (s : State) : Result :=
  .next (s.setFlagThenResult x (shrOut (s.getV x)) (shrResult (s.getV x))).advance

/-- `8xy7`: not-borrow, then `(V[y] - V[x]) mod 256` (R100). -/
def execSubn (x y : RegIx) (s : State) : Result :=
  .next (s.setFlagThenResult x (subNotBorrow (s.getV y) (s.getV x)) (subResult (s.getV y) (s.getV x))).advance

/-- `8xyE`: the bit shifted out, then `(V[x] << 1) mod 256`; `y` is ignored (R101). -/
def execShl (x _y : RegIx) (s : State) : Result :=
  .next (s.setFlagThenResult x (shlOut (s.getV x)) (shlResult (s.getV x))).advance

end Sys2Proof.Machine
end

