-- ==== Sys2Proof/Machine/Display.lean ====
section
/-! DEFINITION. Display and key variants (45_display_keys.md): `00E0 Dxyn Ex9E ExA1 Fx0A`. The core makes exactly the
calls of the pseudocode, once each, and uses the answer (R136). -/

namespace Sys2Proof.Machine

/-- `00E0`: `ClearScreen()` (R130); no byte of `Mem` changes (D20). -/
def execCls (_x : Nibble) (s : State) : Result := .next s.clearScreen.advance

/-- `Dxyn`: `VF <- DrawSprite(V[x], V[y], rows)` (R131). -/
def execDrw (x y : RegIx) (n : Nibble) (s : State) : Result :=
  let answer := s.drawSprite (s.getV x) (s.getV y) (s.spriteRows n)
  .next (answer.2.setV flagIx (collisionFlag answer.1)).advance

/-- `Ex9E`: skip if `IsKeyDown(c)` for the code `c` that `V[x]` names (R132). -/
def execSkp (x : RegIx) (s : State) : Result :=
  match keyCodeOf s.cfg (s.getV x) with
  | some c => .next ((s.isKeyDown c).2.skipIf (s.isKeyDown c).1)
  | none => .refused .keyCodeAbove15

/-- `ExA1`: skip if not `IsKeyDown(c)` for the code `c` that `V[x]` names (R133). -/
def execSknp (x : RegIx) (s : State) : Result :=
  match keyCodeOf s.cfg (s.getV x) with
  | some c => .next ((s.isKeyDown c).2.skipIf (!(s.isKeyDown c).1))
  | none => .refused .keyCodeAbove15

/-- `Fx0A`, the `Step` half: `ES <- AwaitingKey`; `PC` and the registers stay (R134). The key event completes it
(`State.keyEvent`, R135). -/
def execLdXK (_x : RegIx) (s : State) : Result := .next (s.setEngine .awaitingKey)

end Sys2Proof.Machine
end

