-- ==== Sys2Proof/Machine/Flow.lean ====
section
/-! DEFINITION. Control transfer and no-op variants (40_flow.md): `0nnn 00EE 1nnn 2nnn Bnnn Unmapped`. -/

namespace Sys2Proof.Machine

/-- `0nnn`: a no-op (R70). -/
def execSys (_nnn : Addr) (s : State) : Result := .next s.advance

/-- `00EE`: `PC <- pop()`, or `StackUnderflow` (R71, R20, R145). -/
def execRet (_x : Nibble) (s : State) : Result :=
  match s.pop with
  | some (t, s') => .next (s'.setPc t)
  | none => .next (s.raise .stackUnderflow)

/-- `1nnn`: `PC <- nnn` (R72). -/
def execJp (nnn : Addr) (s : State) : Result := .next (s.setPc nnn)

/-- `2nnn`: `push((PC + 2) mod 4096)`, `PC <- nnn`, or `StackOverflow` (R73, R19, R145). -/
def execCall (nnn : Addr) (s : State) : Result :=
  match s.push (s.pc + 2) with
  | some s' => .next (s'.setPc nnn)
  | none => .next (s.raise .stackOverflow)

/-- `Bnnn`: `PC <- (zext_12(V[0]) + nnn) mod 4096` (R74). -/
def execJpV0 (nnn : Addr) (s : State) : Result := .next (s.setPc (zext12 (s.getV 0) + nnn))

/-- `Unmapped` of family 8: a no-op (R75, R103). -/
def execUnmapped8 (_x _y : RegIx) (_n : Nibble) (s : State) : Result := .next s.advance

/-- `Unmapped` of family E: a no-op (R75). -/
def execUnmappedE (_x : RegIx) (_kk : Byte) (s : State) : Result := .next s.advance

/-- `Unmapped` of family F: a no-op (R75). -/
def execUnmappedF (_x : RegIx) (_kk : Byte) (s : State) : Result := .next s.advance

end Sys2Proof.Machine
end

