-- ==== Sys2Proof/Machine/Index.lean ====
section
/-! DEFINITION. Address register and memory variants (43_index_mem.md): `Annn Fx1E Fx29 Fx33 Fx55 Fx65`. None writes
`VF` as a flag; `Fx33`, `Fx55`, `Fx65` leave `I` unchanged (R116, D13). -/

namespace Sys2Proof.Machine

/-- `Annn`: `I <- nnn` (R110). -/
def execLdI (nnn : Addr) (s : State) : Result := .next (s.setI nnn).advance

/-- `Fx1E`: `I <- (I + zext_12(V[x])) mod 4096` (R111). -/
def execAddI (x : RegIx) (s : State) : Result := .next (s.setI (s.ireg + zext12 (s.getV x))).advance

/-- `Fx29`: `I <- FontAddr(d)` for the digit `d` that `V[x]` names (R112); no memory is accessed. -/
def execLdF (x : RegIx) (s : State) : Result :=
  match keyCodeOf s.cfg (s.getV x) with
  | some d => .next (s.setI (glyphAddr s.cfg d)).advance
  | none => .refused .keyCodeAbove15

/-- `Fx33`: the three decimal digits of `V[x]` at `I`, `I + 1`, `I + 2` (R113). -/
def execLdB (x : RegIx) (s : State) : Result :=
  .next (s.setMem (s.mem.writeBytes s.ireg (bcdDigits (s.getV x)))).advance

/-- `Fx55`: `V[0]..V[x]` at `I`, `I + 1`, ... (R114). -/
def execStRegs (x : RegIx) (s : State) : Result :=
  .next (s.setMem (s.mem.writeBytes s.ireg (s.firstRegs (x.val + 1)))).advance

/-- `Fx65`: `V[0]..V[x]` from `I`, `I + 1`, ... (R115). -/
def execLdRegs (x : RegIx) (s : State) : Result := .next (s.loadFirstRegs (x.val + 1)).advance

end Sys2Proof.Machine
end

