-- ==== Sys2Proof/Machine/Skip.lean ====
section
/-! DEFINITION. Conditional skips on registers (41_skip.md): `3xkk 4xkk 5xy0 9xy0`. -/

namespace Sys2Proof.Machine

/-- `3xkk`: skip if `V[x] = kk` (R80). -/
def execSeImm (x : RegIx) (kk : Byte) (s : State) : Result := .next (s.skipIf (s.getV x == kk))

/-- `4xkk`: skip if `V[x] != kk` (R81). -/
def execSneImm (x : RegIx) (kk : Byte) (s : State) : Result := .next (s.skipIf (s.getV x != kk))

/-- `5xy0`: skip if `V[x] = V[y]`; `n` is ignored (R82, R59). -/
def execSeReg (x y : RegIx) (_n : Nibble) (s : State) : Result := .next (s.skipIf (s.getV x == s.getV y))

/-- `9xy0`: skip if `V[x] != V[y]`; `n` is ignored (R83, R59). -/
def execSneReg (x y : RegIx) (_n : Nibble) (s : State) : Result := .next (s.skipIf (s.getV x != s.getV y))

end Sys2Proof.Machine
end

