-- ==== Sys2Proof/Machine/Timers.lean ====
section
/-! DEFINITION. Timer access and random variants (44_timers_random.md): `Fx07 Fx15 Fx18 Cxkk`. -/

namespace Sys2Proof.Machine

/-- `Fx07`: `V[x] <- DT` (R120). -/
def execLdXDt (x : RegIx) (s : State) : Result := .next (s.setV x s.dt).advance

/-- `Fx15`: `DT <- V[x]` (R121). -/
def execLdDtX (x : RegIx) (s : State) : Result := .next (s.setDt (s.getV x)).advance

/-- `Fx18`: `ST <- V[x]` (R122). -/
def execLdStX (x : RegIx) (s : State) : Result := .next (s.setSt (s.getV x)).advance

/-- `Cxkk`: `b <- NextByte()`, `V[x] <- b & kk` (R123). -/
def execRnd (x : RegIx) (kk : Byte) (s : State) : Result :=
  .next (s.nextByte.2.setV x (s.nextByte.1 &&& kk)).advance

end Sys2Proof.Machine
end

