-- ==== Sys2Proof/Machine/Driver.lean ====
section
/-! DEFINITION. The five transactions of rule R5: the `Step` driver (R141), `TimerTick` (R150), `KeyEvent` (R135),
`Reset` (R160) and `Load` (R38), and the launch order that enables them (R162, R163). -/

namespace Sys2Proof.Machine

open Sys2Proof.Config

/-- The variants that write `VF` as a flag and `V[x]` as a result, with `x = 15` (R90, U6). -/
def flagAliased : Instr → Bool
  | .cls _ => false
  | .ret _ => false
  | .sys _ => false
  | .jp _ => false
  | .call _ => false
  | .seImm _ _ => false
  | .sneImm _ _ => false
  | .seReg _ _ _ => false
  | .ldImm _ _ => false
  | .addImm _ _ => false
  | .ldReg _ _ => false
  | .orReg _ _ => false
  | .andReg _ _ => false
  | .xorReg _ _ => false
  | .addReg x _ => x == flagIx
  | .sub x _ => x == flagIx
  | .shr x _ => x == flagIx
  | .subn x _ => x == flagIx
  | .shl x _ => x == flagIx
  | .sneReg _ _ _ => false
  | .ldI _ => false
  | .jpV0 _ => false
  | .rnd _ _ => false
  | .drw _ _ _ => false
  | .skp _ => false
  | .sknp _ => false
  | .ldXDt _ => false
  | .ldXK _ => false
  | .ldDtX _ => false
  | .ldStX _ => false
  | .addI _ => false
  | .ldF _ => false
  | .ldB _ => false
  | .stRegs _ => false
  | .ldRegs _ => false
  | .unmapped8 _ _ _ => false
  | .unmappedE _ _ => false
  | .unmappedF _ _ => false

/-- The caution switches of R4: what the model refuses to execute when they are on (U1, U6). Both are off by default;
they are no property of the core (log entries 13 and 18). -/
def cautionRefusal (p : Params) (i : Instr) : Option Refusal :=
  if p.decodeStrict && !i.canonical then some .nonCanonicalWord
  else if p.refuseFlagAlias && flagAliased i then some .flagAlias
  else none

/-- `execute v` for the fetched word, unless a caution switch refuses it. -/
def executeWord (w : Word) (s : State) : Result :=
  match cautionRefusal s.cfg (decode w) with
  | some r => .refused r
  | none => exec (decode w) s

/-- `Step` (R141): in `Ready`, fetch at `PC`, decode, execute, or take a `FetchFault` (R146, R147); in `AwaitingKey` and
`Halted`, nothing (R141, D30). -/
def State.stepCore (s : State) : Result :=
  match s.engine with
  | .ready =>
    match fetch s.prog s.pc with
    | .word w => executeWord w s
    | .fault c => .next (s.raise (.fetchFault c))
  | .awaitingKey => .next s
  | .halted _ => .next s

/-- A timer counts down by one and stays at 0 (R150; D14, G5). -/
def countDown (b : Byte) : Byte := if b.toNat > 0 then b - 1 else b

/-- `TimerTick`: both timers count down, in every engine state (R150, D15). -/
def State.timerTick (s : State) : State := (s.setDt (countDown s.dt)).setSt (countDown s.st)

/-- `KeyEvent(k)` (R135): while `AwaitingKey`, the key goes to the register the waiting word names, `PC` moves on and
the engine is `Ready`; otherwise the event is dropped (D16). -/
def State.keyEvent (s : State) (k : KeyCode) : Result :=
  match s.engine with
  | .awaitingKey =>
    match fetch s.prog s.pc with
    | .word w => .next (((s.setV (xOf w) (BitVec.ofNat 8 k.val)).advance).setEngine .ready)
    | .fault _ => .fault .noWaitingWord
  | .ready => .next s
  | .halted _ => .next s

/-- `Load(rom)` (R38): an error writes nothing but the outcome; else the bytes go to `Mem` from `0x200` on and the words
to `Prog`. -/
def State.loadRom (s : State) (rom : List Byte) : State :=
  match loadCheck s.cfg rom with
  | some e => { s with phase := .loadFailed e }
  | none =>
    { s with
      mem := s.mem.writeBytes (BitVec.ofNat 12 memStart) rom
      prog := wordsOfRom rom
      phase := .loaded }

/-- One transaction of a running core: a second `Load` has no meaning (R162, U10). -/
def State.transactRunning (t : Transaction) (s : State) : Result :=
  match t with
  | .load _ => .refused .secondLoad
  | .reset => .next s.resetCore
  | .step => s.stepCore
  | .timerTick => .next s.timerTick
  | .keyEvent k => s.keyEvent k

/-- One transaction, in the launch order of R162: first `Load`, once; then `Reset`; then any of the others. What the
spec gives no meaning (R38, R163, U10) is refused. -/
def State.transact (t : Transaction) (s : State) : Result :=
  match s.phase with
  | .running => s.transactRunning t
  | .loaded =>
    match t with
    | .reset => .next s.resetCore
    | .load _ => .refused .secondLoad
    | .step | .timerTick | .keyEvent _ => .refused .notReset
  | .noProgram =>
    match t with
    | .load rom => .next (s.loadRom rom)
    | .reset | .step | .timerTick | .keyEvent _ => .refused .noProgram
  | .loadFailed _ => .refused .noProgram

/-- An agenda whose first transaction is a `Step`: the given one when it is (an empty agenda issues `Step`), else with
a `Step` before it. -/
def stepFirst : List Transaction → List Transaction
  | [] => []
  | .step :: rest => .step :: rest
  | t :: rest => .step :: t :: rest

/-- Whether an address can hold an instruction: even and at or above `0x200` (R36, R40). -/
def isCodeAddr (a : Addr) : Bool := decide (a.toNat % 2 = 0) && decide (memStart ≤ a.toNat)

/-- `PC` as the next fetch needs it: kept where an instruction can stand there, else `0x200`. -/
def codePc (a : Addr) : Addr := if isCodeAddr a then a else BitVec.ofNat 12 memStart

end Sys2Proof.Machine
end

