-- ==== Sys2Proof/Machine/Step.lean ====
section
/-! DEFINITION. One step of the machine is one transaction (R5): the host's next one, or `Step` when the agenda is
empty (log entry 5). -/

namespace Sys2Proof.Machine

open Sys2Proof.Config

/-- The next transaction of the agenda, taken off it; an empty agenda issues `Step`. -/
def step (s : State) : Host.Outcome State Fault Refusal :=
  match s.agenda with
  | [] => s.transact .step
  | t :: rest => (s.setAgenda rest).transact t

/-- `s` with the word `w` (bits above `nbits` zero) as the entry of `Prog` that the very next `step` fetches: the model's
stand-in for `Load` (log entry 8). The engine is `Ready`, the launch is done, the next transaction is a `Step`, and `PC`
is kept where an instruction can stand there. -/
def State.withFetchWord (s : State) (nbits w : Nat) : State :=
  { s with
    pc := codePc s.pc
    prog := placeWord s.prog (((codePc s.pc).toNat - memStart) / insnBytes) (BitVec.ofNat 16 (w % 2 ^ nbits))
    engine := .ready
    phase := .running
    agenda := stepFirst s.agenda }

end Sys2Proof.Machine
end

