-- ==== Sys2Proof/Machine/Disassembly.lean ====
section
/-! DEFINITION. Assembler text (30_encoding.md section 4): the mnemonics of R64 and the operand rendering of R63, as
lists of characters. The column widths and separators of R62 are not in the source (N13); the digits' case is a DESIGN
CHOICE (log entry 29). Nothing here enters execution. -/

namespace Sys2Proof.Machine

/-- A hex digit, upper case (log entry 29). -/
def hexDigit (n : Nibble) : Char :=
  if n.toNat < 10 then Char.ofNat (48 + n.toNat) else Char.ofNat (55 + n.toNat)

/-- Two hex digits. -/
def hexByte (b : Byte) : List Char := [hexDigit (b.extractLsb' 4 4), hexDigit (b.extractLsb' 0 4)]

/-- "addresses as 3-hex-digit" (R63). -/
def hexAddr (a : Addr) : List Char := hexDigit (a.extractLsb' 8 4) :: hexByte (a.extractLsb' 0 8)

/-- The line's 4-hex-digit address (R62). -/
def hexWord (w : Word) : List Char := hexByte (w.extractLsb' 8 8) ++ hexByte (w.extractLsb' 0 8)

/-- A decimal digit. -/
def decDigit (n : Nat) : Char := Char.ofNat (48 + n % 10)

/-- A number below 1000 in decimal, without leading zeros. -/
def decimal (n : Nat) : List Char :=
  if n < 10 then [decDigit n]
  else if n < 100 then [decDigit (n / 10), decDigit n]
  else [decDigit (n / 100), decDigit (n / 10), decDigit n]

/-- "register operands as `V` + hex index" (R63). -/
def regText (x : RegIx) : List Char := ['V', hexDigit (regBits x)]

/-- "byte immediates as signed decimal for compare/move/add": `kk` if `kk < 128`, else `kk - 256` (R63). Text only
(R58, C4). -/
def signedText (kk : Byte) : List Char :=
  if kk.toNat < 128 then decimal kk.toNat else '-' :: decimal (256 - kk.toNat)

/-- "unsigned for mask/draw-count" (R63). -/
def unsignedText (n : Nat) : List Char := decimal n

/-- The mnemonic of a variant (R64; the names are the spec's own, D24, G6). -/
def mnemonicText : Variant → List Char
  | .cls => ['C', 'L', 'S']
  | .ret => ['R', 'E', 'T']
  | .sys => ['S', 'Y', 'S']
  | .jp => ['J', 'P']
  | .call => ['C', 'A', 'L', 'L']
  | .seImm => ['S', 'E']
  | .sneImm => ['S', 'N', 'E']
  | .seReg => ['S', 'E']
  | .ldImm => ['L', 'D']
  | .addImm => ['A', 'D', 'D']
  | .ldReg => ['L', 'D']
  | .orReg => ['O', 'R']
  | .andReg => ['A', 'N', 'D']
  | .xorReg => ['X', 'O', 'R']
  | .addReg => ['A', 'D', 'D']
  | .sub => ['S', 'U', 'B']
  | .shr => ['S', 'H', 'R']
  | .subn => ['S', 'U', 'B', 'N']
  | .shl => ['S', 'H', 'L']
  | .sneReg => ['S', 'N', 'E']
  | .ldI => ['L', 'D']
  | .jpV0 => ['J', 'P']
  | .rnd => ['R', 'N', 'D']
  | .drw => ['D', 'R', 'W']
  | .skp => ['S', 'K', 'P']
  | .sknp => ['S', 'K', 'N', 'P']
  | .ldXDt => ['L', 'D']
  | .ldXK => ['L', 'D']
  | .ldDtX => ['L', 'D']
  | .ldStX => ['L', 'D']
  | .addI => ['A', 'D', 'D']
  | .ldF => ['L', 'D']
  | .ldB => ['L', 'D']
  | .stRegs => ['L', 'D']
  | .ldRegs => ['L', 'D']
  | .unmapped => ['u', 'n', 'k', 'n', 'o', 'w', 'n']

/-- The operand texts of an instruction, in the order of R64's column "syntax", rendered by R63. -/
def operandTexts : Instr → List (List Char)
  | .cls _ => []
  | .ret _ => []
  | .sys nnn => [hexAddr nnn]
  | .jp nnn => [hexAddr nnn]
  | .call nnn => [hexAddr nnn]
  | .seImm x kk => [regText x, signedText kk]
  | .sneImm x kk => [regText x, signedText kk]
  | .seReg x y _ => [regText x, regText y]
  | .ldImm x kk => [regText x, signedText kk]
  | .addImm x kk => [regText x, signedText kk]
  | .ldReg x y => [regText x, regText y]
  | .orReg x y => [regText x, regText y]
  | .andReg x y => [regText x, regText y]
  | .xorReg x y => [regText x, regText y]
  | .addReg x y => [regText x, regText y]
  | .sub x y => [regText x, regText y]
  | .shr x _ => [regText x]
  | .subn x y => [regText x, regText y]
  | .shl x _ => [regText x]
  | .sneReg x y _ => [regText x, regText y]
  | .ldI nnn => [['I'], hexAddr nnn]
  | .jpV0 nnn => [['V', '0'], hexAddr nnn]
  | .rnd x kk => [regText x, unsignedText kk.toNat]
  | .drw x y n => [regText x, regText y, unsignedText n.toNat]
  | .skp x => [regText x]
  | .sknp x => [regText x]
  | .ldXDt x => [regText x, ['D', 'T']]
  | .ldXK x => [regText x, ['K']]
  | .ldDtX x => [['D', 'T'], regText x]
  | .ldStX x => [['S', 'T'], regText x]
  | .addI x => [['I'], regText x]
  | .ldF x => [['F'], regText x]
  | .ldB x => [['B'], regText x]
  | .stRegs x => [['[', 'I', ']'], regText x]
  | .ldRegs x => [regText x, ['[', 'I', ']']]
  | .unmapped8 _ _ _ => []
  | .unmappedE _ _ => []
  | .unmappedF _ _ => []

/-- One line of a listing: address, the raw bytes, mnemonic, operands (R62). -/
structure ListingLine where
  address : List Char
  rawBytes : List (List Char)
  mnemonic : List Char
  operands : List (List Char)
  deriving DecidableEq, Repr

/-- The line of a word at the cursor: a pure function of the two (R62). -/
def listingLine (cursor w : Word) : ListingLine where
  address := hexWord cursor
  rawBytes := (bytesOfWord w).map hexByte
  mnemonic := mnemonicText (decode w).variant
  operands := operandTexts (decode w)

/-- The listing of a program: one line a word; the cursor advances by 2, whatever the word is (R62). A word that is
data is listed as what it decodes to (R65). -/
def listing (cursor : Word) : List Word → List ListingLine
  | [] => []
  | w :: ws => listingLine cursor w :: listing (cursor + 2) ws

end Sys2Proof.Machine
end

