-- ==== Sys2Proof/Safety.lean ====
section
/-! DEFINITION. The terms in which claims are stated: the invariant of every step, the good and terminal states, and runs. -/

namespace Sys2Proof.Machine

open Sys2Proof.Config

/-! ### The invariant -/

/-- `Prog` fits below the display region (R33, R38). -/
def State.ProgFits (s : State) : Prop := insnBytes * s.prog.length ≤ s.cfg.maxProgramLen

/-- Every live stack entry is the address after a `2nnn` word of the program: only `2nnn` pushes, and it executes at an
in-program address (R17, R18, R71). -/
def State.StackHoldsReturns (s : State) : Prop :=
  ∀ j : Fin 16, j.val < s.sp.val →
    ∃ k w, s.prog[k]? = some w ∧ (decode w).variant = .call ∧
      s.stack[j] = BitVec.ofNat 12 (memStart + insnBytes * k + 2)

/-- While `AwaitingKey`, the word at `PC` is the `Fx0A` that suspended the engine (R13, R26). -/
def State.WaitsAtKeyWord (s : State) : Prop :=
  s.engine = .awaitingKey → ∃ w, fetch s.prog s.pc = .word w ∧ (decode w).variant = .ldXK

/-- While `Halted(e)`, `PC` names the instruction that faulted and `e` says why (R13, R142, R144). -/
def State.HaltNamesCause (s : State) : Prop :=
  match s.engine with
  | .ready => True
  | .awaitingKey => True
  | .halted .stackOverflow =>
    s.sp = 16 ∧ ∃ w, fetch s.prog s.pc = .word w ∧ (decode w).variant = .call
  | .halted .stackUnderflow =>
    s.sp = 0 ∧ ∃ w, fetch s.prog s.pc = .word w ∧ (decode w).variant = .ret
  | .halted (.fetchFault c) => fetch s.prog s.pc = .fault c

/-- The invariant that every step keeps: memory in canonical form; once a program is loaded it fits; once the core
runs, the stack holds return addresses, a wait stands at its `Fx0A`, and a halt names its cause. -/
structure State.Inv (s : State) : Prop where
  memWf : s.mem.wf = true
  progFits : s.phase = .loaded ∨ s.phase = .running → s.ProgFits
  stackHoldsReturns : s.phase = .running → s.StackHoldsReturns
  waitsAtKeyWord : s.phase = .running → s.WaitsAtKeyWord
  haltNamesCause : s.phase = .running → s.HaltNamesCause

/-- The words of a program cannot send `PC` to an odd address: no `1nnn` or `2nnn` has an odd `nnn`, and there is no
`Bnnn`, whose target depends on `V[0]` (R16, R28). -/
def evenTargets (prog : List Word) : Bool :=
  prog.all fun w =>
    match (decode w).variant with
    | .jp => (nnnOf w).toNat % 2 == 0
    | .call => (nnnOf w).toNat % 2 == 0
    | .jpV0 => false
    | _ => true

/-! ### Good and terminal states -/

/-- The engine has not faulted: `Halted` is never a good end of a run (R148). -/
def State.notHalted (s : State) : Bool :=
  match s.engine with
  | .ready => true
  | .awaitingKey => true
  | .halted _ => false

/-- Terminal by convention: `Ready`, and the word at `PC` is `1nnn` with `nnn = PC` (R175, D23). -/
def State.terminal (s : State) : Bool :=
  s.engine == .ready &&
  (match fetch s.prog s.pc with
   | .word w => decode w == .jp s.pc
   | .fault _ => false)

/-- The instruction clock issues the next transaction: a `Step` of a running core. -/
def State.atStep (s : State) : Prop :=
  s.phase = .running ∧ (s.agenda = [] ∨ ∃ rest, s.agenda = .step :: rest)

/-- `s` with its next transaction taken off the agenda. -/
def State.afterIssue (s : State) : State := s.setAgenda s.agenda.tail

/-- The coming transactions are `Step`s and `TimerTick`s only. -/
def onlyStepsAndTicks (l : List Transaction) : Prop := ∀ t ∈ l, t = .step ∨ t = .timerTick

/-- The coming transactions hold no `Reset`. -/
def noReset (l : List Transaction) : Prop := Transaction.reset ∉ l

/-! ### Host schedules and fairness (R172)

Safety is claimed of one step or of `runFor`. A claim that something comes about rests on the host, and names its
fairness premise from here. -/

/-- A host schedule: the transaction the host issues at each point, without end, in any order (R172, D26). It is an
argument of claims and no part of `State`. -/
abbrev Schedule := Nat → Transaction

/-- An unbounded run under a schedule: each state is what `step` makes of the one before it when the schedule's next
transaction is the next on the agenda. -/
def HostRun (h : Schedule) (σ : Nat → State) : Prop := ∀ n, step ((σ n).setAgenda [h n]) = .next (σ (n + 1))

/-- Weak fairness of `TimerTick` (R172): it is enabled in every state (R5), so after every point one still comes. -/
def ticksWeaklyFair (h : Schedule) : Prop := ∀ n, ∃ m, n ≤ m ∧ h m = .timerTick

/-- The explicit premise for a claim that goes past an `Fx0A` (R172, R135): from point `n` on, a `KeyEvent` comes. -/
def keyEventComes (h : Schedule) (n : Nat) : Prop := ∃ m k, n ≤ m ∧ h m = .keyEvent k

/-- From point `n` on, `PC` never stands at an instruction of the given variant. -/
def neverAt (v : Variant) (σ : Nat → State) (n : Nat) : Prop :=
  ∀ m w, n ≤ m → fetch (σ m).prog (σ m).pc = .word w → (decode w).variant ≠ v

/-! ### Vocabulary of the per-instruction claims

A claim says what stays by an equation: the next state is the old one with the listed fields replaced, so that every
other register, the stack, the timers, the engine, every byte of `Mem`, the program, the parameters and the host's side
are as before. -/

/-- The address `d` bytes after the executing instruction, modulo 4096 (R13, R15). -/
def State.pcPlus (s : State) (d : Nat) : Addr := BitVec.ofNat 12 ((s.pc.toNat + d) % 4096)

/-- Which general registers an instruction's `Step` may write: the write rows of the access table of R10. `Fx0A` writes
its register at the key event, not at its `Step` (R134). -/
def mayWriteReg : Instr → RegIx → Bool
  | .cls _, _ => false
  | .ret _, _ => false
  | .sys _, _ => false
  | .jp _, _ => false
  | .call _, _ => false
  | .seImm _ _, _ => false
  | .sneImm _ _, _ => false
  | .seReg _ _ _, _ => false
  | .ldImm x _, r => r == x
  | .addImm x _, r => r == x
  | .ldReg x _, r => r == x
  | .orReg x _, r => r == x
  | .andReg x _, r => r == x
  | .xorReg x _, r => r == x
  | .addReg x _, r => r == x || r == flagIx
  | .sub x _, r => r == x || r == flagIx
  | .shr x _, r => r == x || r == flagIx
  | .subn x _, r => r == x || r == flagIx
  | .shl x _, r => r == x || r == flagIx
  | .sneReg _ _ _, _ => false
  | .ldI _, _ => false
  | .jpV0 _, _ => false
  | .rnd x _, r => r == x
  | .drw _ _ _, r => r == flagIx
  | .skp _, _ => false
  | .sknp _, _ => false
  | .ldXDt x, r => r == x
  | .ldXK _, _ => false
  | .ldDtX _, _ => false
  | .ldStX _, _ => false
  | .addI _, _ => false
  | .ldF _, _ => false
  | .ldB _, _ => false
  | .stRegs _, _ => false
  | .ldRegs x, r => decide (r.val ≤ x.val)
  | .unmapped8 _ _ _, _ => false
  | .unmappedE _ _, _ => false
  | .unmappedF _ _, _ => false

/-- The state after `n` steps, stopping at the first fault or refusal. -/
def runFor (n : Nat) (s : State) : Result := Host.Core.run Sys2Proof.core n s

end Sys2Proof.Machine
end

