-- ==== Sys2Proof/Certificates/Slice0/Obligations.lean ====
section
/-! DEFINITION. The statements for the provers. Where a statement rests on a decision the spec marks as its own (D<n> of
92_eei_decisions.md, G<n> of 93_implementation_defined.md) or on a choice of the model, its docstring says so. -/

section

open Sys2Proof Sys2Proof.Machine Sys2Proof.Config

/-! ### Encoding -/

/-- No bit of an encoding is dropped: decoding the word of a well-formed instruction gives the instruction back, with
every operand at every value (R51, R53, R55). Which bits the decoder examines is D1. -/
def Obligations.DecodeOfEncodeGivesInstrBack : Prop :=
  ∀ i : Instr, i.wellFormed = true → decode (encode i) = i

/-- Every word is the word of the well-formed instruction it decodes to: decode is total (R52) and loses nothing. -/
def Obligations.EncodeOfDecodeGivesWordBack : Prop :=
  ∀ w : Word, (decode w).wellFormed = true ∧ encode (decode w) = w

/-- The decoder agrees with the opcode map read as data: each of the 65536 words selects exactly one matching row of
largest priority, and its variant is the decoded one (R55, R56; the masks follow D1). -/
def Obligations.DecodeSelectsRowOfLargestPriority : Prop :=
  ∀ w : Word, ∃ row ∈ opcodeTable, row.selects w = true ∧ row.variant = (decode w).variant ∧
    ∀ row' ∈ opcodeTable, row'.selects w = true → row' = row ∨ row'.priority < row.priority

/-- Words written out from the spec's vectors E1 and E2 decode to the instruction they stand for. That `0x0AEE` is `RET`
(`x` not examined) and `0x5121` is `SE V1, V2` (`n` not examined) is the spec's own decision D1 (log entry 13). -/
def Obligations.VectorWordsDecodeToTheirInstr : Prop :=
  decode 0x00E0 = .cls 0 ∧ decode 0x0AEE = .ret 0xA ∧ decode 0x0123 = .sys 0x123 ∧ decode 0x2345 = .call 0x345 ∧
  decode 0x3A7F = .seImm 10 0x7F ∧ decode 0x5121 = .seReg 1 2 1 ∧ decode 0x7DFF = .addImm 13 0xFF ∧
  decode 0x812E = .shl 1 2 ∧ decode 0x812F = .unmapped8 1 2 0xF ∧ decode 0xB210 = .jpV0 0x210 ∧
  decode 0xD125 = .drw 1 2 5 ∧ decode 0xE5A1 = .sknp 5 ∧ decode 0xE0A2 = .unmappedE 0 0xA2 ∧
  decode 0xF30A = .ldXK 3 ∧ decode 0xF265 = .ldRegs 2 ∧ decode 0xF066 = .unmappedF 0 0x66

/-- A byte sequence is read as big-endian words `w = l*256 + r` (R31, R50). -/
def Obligations.BytesDecodeBigEndian : Prop :=
  ∀ (l r : Byte) (rest : List Byte),
    decodeBytes (l :: r :: rest) = .instr (decode (BitVec.ofNat 16 (l.toNat * 256 + r.toNat))) rest

/-! ### The step driver -/

/-- A `Step` of a running, `Ready` core whose word at `PC` decodes to `i` is `exec i`, on the state whose agenda has
given up the `Step`, unless a caution switch is on for it (R141). -/
def Obligations.StepRunsDecodedInstr : Prop :=
  ∀ (s : State) (w : Word) (i : Instr), s.atStep → s.engine = .ready → fetch s.prog s.pc = .word w → decode w = i →
    (s.cfg.decodeStrict = false ∨ i.canonical = true) → (s.cfg.refuseFlagAlias = false ∨ flagAliased i = false) →
    step s = exec i s.afterIssue

/-- A `Step` of a `Ready` core at an odd `PC` takes `FetchFault(Misaligned)`, at an even one outside
`[0x200, 0x200 + LEN)` `FetchFault(OutOfProgram)`; nothing else changes. That these fetches fault, and that the fault
writes nothing, are the spec's own D3 and D5. -/
def Obligations.StepTakesFetchFault : Prop :=
  ∀ s : State, s.atStep → s.engine = .ready →
    (s.pc.toNat % 2 = 1 →
      step s = .next { s.afterIssue with engine := .halted (.fetchFault .misaligned) }) ∧
    (s.pc.toNat % 2 = 0 → s.pc.toNat < 0x200 ∨ 0x200 + 2 * s.prog.length ≤ s.pc.toNat →
      step s = .next { s.afterIssue with engine := .halted (.fetchFault .outOfProgram) })

/-- A `Step` while `AwaitingKey` or `Halted`, and a `KeyEvent` while `Ready` or `Halted`, change nothing: only the
agenda moves on (R141, R135; for `Halted` the spec's own D30, for the dropped event its D16). -/
def Obligations.UnheededTransactionsChangeNothing : Prop :=
  ∀ s : State,
    (s.atStep → s.engine ≠ .ready → step s = .next s.afterIssue) ∧
    ∀ (k : KeyCode) (rest : List Transaction), s.phase = .running → s.agenda = .keyEvent k :: rest →
      s.engine ≠ .awaitingKey → step s = .next { s with agenda := rest }

/-- With `DecodeStrict` on, a `Step` on a non-canonical word is refused; with `RefuseFlagAlias` on and `DecodeStrict`
off, one on a flag-writing ALU variant with `x = 15` is (U1, U6: switches of the model, off by default). -/
def Obligations.CautionSwitchesRefuse : Prop :=
  ∀ (s : State) (w : Word), s.atStep → s.engine = .ready → fetch s.prog s.pc = .word w →
    (s.cfg.decodeStrict = true → (decode w).canonical = false → step s = .refused .nonCanonicalWord) ∧
    (s.cfg.decodeStrict = false → s.cfg.refuseFlagAlias = true → flagAliased (decode w) = true →
      step s = .refused .flagAlias)

/-- No transaction of a running core but a second `Load` stops the model, in a state that keeps the invariant, under
`mask4` and with the caution switches off: every word executes (R59), every fault is a next state (R144). `mask4` is the
alternative of D10, D11 (log entry 3). -/
def Obligations.NoTransactionStopsRunningCore : Prop :=
  ∀ s : State, s.Inv → s.phase = .running → (∀ rom rest, s.agenda ≠ .load rom :: rest) →
    s.cfg.keyCodePolicy = .mask4 → s.cfg.decodeStrict = false → s.cfg.refuseFlagAlias = false →
    ∃ t, step s = .next t

/-! ### Control transfer and no-ops -/

/-- `0nnn`: exactly the words of family 0 whose second byte is neither `0xE0` nor `0xEE` are it, and for any `nnn` it
only advances `PC` (R70; that `0x0xE0` and `0x0xEE` with `x` other than 0 are not `0nnn` is the spec's own D1, log
entry 13). -/
def Obligations.SysOnlyAdvancesPc : Prop :=
  (∀ w : Word, (decode w).variant = .sys ↔ familyOf w = 0x0 ∧ kkOf w ≠ 0xE0 ∧ kkOf w ≠ 0xEE) ∧
  (∀ w : Word, (decode w).variant = .sys → decode w = .sys (nnnOf w)) ∧
  ∀ (nnn : Addr) (s : State), exec (.sys nnn) s = .next { s with pc := s.pcPlus 2 }

/-- `Unmapped` is exactly the words of families 8, E, F with an unrecognised sub-selector, and it only advances `PC`
(R75; the list of words is R56, which the spec derives from R53; that no word of families 0, 5, 9 is one is the spec's own
D1, log entry 13). -/
def Obligations.UnmappedOnlyAdvancesPc : Prop :=
  (∀ w : Word, (decode w).variant = .unmapped ↔
    (familyOf w = 0x8 ∧ nOf w ∈ [0x8, 0x9, 0xA, 0xB, 0xC, 0xD, 0xF]) ∨
    (familyOf w = 0xE ∧ kkOf w ∉ [0x9E, 0xA1]) ∨
    (familyOf w = 0xF ∧ kkOf w ∉ [0x07, 0x0A, 0x15, 0x18, 0x1E, 0x29, 0x33, 0x55, 0x65])) ∧
  ∀ (i : Instr) (s : State), i.variant = .unmapped → exec i s = .next { s with pc := s.pcPlus 2 }

/-- `1nnn` puts `nnn`, and `Bnnn` puts `(V[0] + nnn) mod 4096`, in `PC`; nothing else changes (R72, R74). -/
def Obligations.JumpsWriteOnlyPc : Prop :=
  ∀ (nnn : Addr) (s : State),
    exec (.jp nnn) s = .next { s with pc := nnn } ∧
    exec (.jpV0 nnn) s = .next { s with pc := BitVec.ofNat 12 (((s.getV 0).toNat + nnn.toNat) % 4096) }

/-- `2nnn` with `SP < 16` writes `S[SP] <- (PC + 2) mod 4096`, counts `SP` up and jumps; every other entry, and all
else, stays (R73; the width of the pushed value is D7). -/
def Obligations.CallPushesReturnAddress : Prop :=
  ∀ (nnn : Addr) (s : State), s.sp.val < 16 →
    ∃ (S' : Vector Addr 16) (sp' : Fin 17),
      exec (.call nnn) s = .next { s with stack := S', sp := sp', pc := nnn } ∧ sp'.val = s.sp.val + 1 ∧
      ∀ j : Fin 16, S'[j] = if j.val = s.sp.val then s.pcPlus 2 else s.stack[j]

/-- `00EE` with `SP > 0` counts `SP` down and puts `S[SP - 1]` in `PC`; the entries and all else stay (R71, R20; that
the unexamined `x` does not matter is the spec's own D1, log entry 13). -/
def Obligations.RetPopsReturnAddress : Prop :=
  ∀ (x : Nibble) (s : State) (j : Fin 16), s.sp.val = j.val + 1 →
    ∃ sp' : Fin 17, exec (.ret x) s = .next { s with sp := sp', pc := s.stack[j] } ∧ sp'.val = j.val

/-- `2nnn` with a full stack and `00EE` with an empty one take their fault: the single effect is `ES <- Halted(e)`
(R145; that nothing else is written is the spec's own D5, that the unexamined `x` of `00EE` does not matter its D1, log
entry 13). -/
def Obligations.StackFaultsWriteOnlyEngine : Prop :=
  ∀ (nnn : Addr) (x : Nibble) (s : State),
    (s.sp.val = 16 → exec (.call nnn) s = .next { s with engine := .halted .stackOverflow }) ∧
    (s.sp.val = 0 → exec (.ret x) s = .next { s with engine := .halted .stackUnderflow })

/-- "call then immediate return restores exactly the pushed return address" (S4): a call that does not overflow,
followed by a return, gives the state before the call with `PC + 2`, but for one dead stack entry (the unexamined `x` of
`00EE` is the spec's own D1, log entry 13). -/
def Obligations.CallThenRetReturnsPastCall : Prop :=
  ∀ (nnn : Addr) (x : Nibble) (s : State), s.sp.val < 16 →
    ∃ (t : State) (S' : Vector Addr 16),
      exec (.call nnn) s = .next t ∧ exec (.ret x) t = .next { s with pc := s.pcPlus 2, stack := S' } ∧
      ∀ j : Fin 16, j.val ≠ s.sp.val → S'[j] = s.stack[j]

/-! ### Skips -/

/-- `3xkk` and `4xkk`: exactly the words of families 3 and 4, and `PC + 4` or `PC + 2` by the comparison of `V[x]` with
the byte `kk`; nothing else changes (R80, R81). -/
def Obligations.SkipOnImmediate : Prop :=
  (∀ w : Word, (decode w).variant = .seImm ↔ familyOf w = 0x3) ∧
  (∀ w : Word, (decode w).variant = .sneImm ↔ familyOf w = 0x4) ∧
  (∀ w : Word, familyOf w = 0x3 → decode w = .seImm (xOf w) (kkOf w)) ∧
  (∀ w : Word, familyOf w = 0x4 → decode w = .sneImm (xOf w) (kkOf w)) ∧
  ∀ (x : RegIx) (kk : Byte) (s : State),
    exec (.seImm x kk) s = .next { s with pc := if s.getV x = kk then s.pcPlus 4 else s.pcPlus 2 } ∧
    exec (.sneImm x kk) s = .next { s with pc := if s.getV x ≠ kk then s.pcPlus 4 else s.pcPlus 2 }

/-- `5xy0` and `9xy0`, for every value of the unexamined nibble `n` (D1): `PC + 4` or `PC + 2` by the comparison;
nothing else changes (R82, R83). -/
def Obligations.SkipOnRegisters : Prop :=
  ∀ (x y : RegIx) (n : Nibble) (s : State),
    exec (.seReg x y n) s = .next { s with pc := if s.getV x = s.getV y then s.pcPlus 4 else s.pcPlus 2 } ∧
    exec (.sneReg x y n) s = .next { s with pc := if s.getV x ≠ s.getV y then s.pcPlus 4 else s.pcPlus 2 }

/-! ### Register load and ALU -/

/-- `6xkk`: exactly the words of family 6; `V[x] <- kk`, `PC + 2`, nothing else (R91). -/
def Obligations.LoadImmediate : Prop :=
  (∀ w : Word, (decode w).variant = .ldImm ↔ familyOf w = 0x6) ∧
  (∀ w : Word, familyOf w = 0x6 → decode w = .ldImm (xOf w) (kkOf w)) ∧
  ∀ (x : RegIx) (kk : Byte) (s : State),
    ∃ v' : Vector Byte 16, exec (.ldImm x kk) s = .next { s with v := v', pc := s.pcPlus 2 } ∧
      ∀ r : RegIx, v'[r] = if r = x then kk else s.getV r

/-- `7xkk`: `V[x] <- (V[x] + kk) mod 256`, `PC + 2`; every other register, `VF` among them, and all else stays (R92;
that no flag is written is the spec's own D31). -/
def Obligations.AddImmediateWritesNoFlag : Prop :=
  ∀ (x : RegIx) (kk : Byte) (s : State),
    ∃ v' : Vector Byte 16, exec (.addImm x kk) s = .next { s with v := v', pc := s.pcPlus 2 } ∧
      ∀ r : RegIx, v'[r].toNat =
        if r = x then ((s.getV x).toNat + kk.toNat) % 256 else (s.getV r).toNat

/-- `8xy0`, `8xy1`, `8xy2`, `8xy3`: move, OR, AND, XOR bit by bit into `V[x]`, `PC + 2`; every other register, `VF`
among them, and all else stays (R93 to R96; `PC + 2` is the spec's own D2, the untouched `VF` its D31). -/
def Obligations.MoveAndLogicWriteNoFlag : Prop :=
  ∀ (x y : RegIx) (s : State), ∃ m o a e : Vector Byte 16,
    exec (.ldReg x y) s = .next { s with v := m, pc := s.pcPlus 2 } ∧
    exec (.orReg x y) s = .next { s with v := o, pc := s.pcPlus 2 } ∧
    exec (.andReg x y) s = .next { s with v := a, pc := s.pcPlus 2 } ∧
    exec (.xorReg x y) s = .next { s with v := e, pc := s.pcPlus 2 } ∧
    ∀ (r : RegIx) (k : Fin 8),
      m[r][k] = (if r = x then (s.getV y)[k] else (s.getV r)[k]) ∧
      o[r][k] = (if r = x then (s.getV x)[k] || (s.getV y)[k] else (s.getV r)[k]) ∧
      a[r][k] = (if r = x then (s.getV x)[k] && (s.getV y)[k] else (s.getV r)[k]) ∧
      e[r][k] = (if r = x then (s.getV x)[k] ^^ (s.getV y)[k] else (s.getV r)[k])

/-- `8xy4`: `V[x] <- (V[x] + V[y]) mod 256`, then `VF <- 1` if the sum exceeds 255, else 0, both from the old operands;
with `x = 15` the carry stands (R97; latching and write order are the spec's own D6, `PC + 2` its D2). -/
def Obligations.AddSetsCarry : Prop :=
  ∀ (x y : RegIx) (s : State),
    ∃ v' : Vector Byte 16, exec (.addReg x y) s = .next { s with v := v', pc := s.pcPlus 2 } ∧
      ∀ r : RegIx, v'[r].toNat =
        if r = 15 then (if (s.getV x).toNat + (s.getV y).toNat > 255 then 1 else 0)
        else if r = x then ((s.getV x).toNat + (s.getV y).toNat) % 256
        else (s.getV r).toNat

/-- `8xy5` and `8xy7`: `VF <- 1` if no borrow occurs, else 0, then `V[x]` gets the difference modulo 256, both from the
old operands; with `x = 15` the difference stands (R98, R100; the spec's own D6, D2). -/
def Obligations.SubtractSetsNotBorrow : Prop :=
  ∀ (x y : RegIx) (s : State), ∃ v' u' : Vector Byte 16,
    exec (.sub x y) s = .next { s with v := v', pc := s.pcPlus 2 } ∧
    exec (.subn x y) s = .next { s with v := u', pc := s.pcPlus 2 } ∧
    (∀ r : RegIx, (v'[r].toNat : Int) =
      if r = x then ((s.getV x).toNat - (s.getV y).toNat : Int) % 256
      else if r = 15 then (if (s.getV x).toNat ≥ (s.getV y).toNat then 1 else 0)
      else (s.getV r).toNat) ∧
    (∀ r : RegIx, (u'[r].toNat : Int) =
      if r = x then ((s.getV y).toNat - (s.getV x).toNat : Int) % 256
      else if r = 15 then (if (s.getV y).toNat ≥ (s.getV x).toNat then 1 else 0)
      else (s.getV r).toNat)

/-- `8xy6` and `8xyE`: `VF` gets the bit shifted out, then `V[x]` is halved, or doubled modulo 256; `V[y]` does not
enter; with `x = 15` the shifted value stands (R99, R101; the spec's own D6, D31, D2). -/
def Obligations.ShiftsSetBitShiftedOut : Prop :=
  ∀ (x y : RegIx) (s : State), ∃ v' u' : Vector Byte 16,
    exec (.shr x y) s = .next { s with v := v', pc := s.pcPlus 2 } ∧
    exec (.shl x y) s = .next { s with v := u', pc := s.pcPlus 2 } ∧
    (∀ r : RegIx, v'[r].toNat =
      if r = x then (s.getV x).toNat / 2
      else if r = 15 then (s.getV x).toNat % 2
      else (s.getV r).toNat) ∧
    (∀ r : RegIx, u'[r].toNat =
      if r = x then (s.getV x).toNat * 2 % 256
      else if r = 15 then (s.getV x).toNat / 128
      else (s.getV r).toNat)

/-! ### Address register and memory -/

/-- `Annn`: `I <- nnn`; `Fx1E`: `I <- (I + V[x]) mod 4096`; `PC + 2`, and no register, `VF` among them, nor anything
else changes (R110, R111; the spec's own D2, D31). -/
def Obligations.IndexLoadAndAdd : Prop :=
  ∀ (nnn : Addr) (x : RegIx) (s : State),
    exec (.ldI nnn) s = .next { s with ireg := nnn, pc := s.pcPlus 2 } ∧
    exec (.addI x) s =
      .next { s with ireg := BitVec.ofNat 12 ((s.ireg.toNat + (s.getV x).toNat) % 4096), pc := s.pcPlus 2 }

/-- `Fx29`: `I <- FontAddr(d)`, `d = V[x]` up to 15 and its low four bits above 15 under `mask4`; `PC + 2`, nothing
else; above 15 under `refuse` the model gives no meaning (R112; `FontAddr` is a parameter, the policy is the spec's own
D11, log entry 3, `PC + 2` its D2, log entry 14). -/
def Obligations.GlyphAddressOfDigit : Prop :=
  ∀ (x : RegIx) (s : State) (d : Fin 16), d.val = (s.getV x).toNat % 16 →
    ((s.getV x).toNat ≤ 15 ∨ s.cfg.keyCodePolicy = .mask4 →
      exec (.ldF x) s = .next { s with ireg := s.cfg.fontAddr[d], pc := s.pcPlus 2 }) ∧
    ((s.getV x).toNat > 15 → s.cfg.keyCodePolicy = .refuse → exec (.ldF x) s = .refused .keyCodeAbove15)

/-- `Fx33`: hundreds, tens and ones of `V[x]` at `I`, `I + 1`, `I + 2` modulo 4096; every other byte reads as before,
and nothing but `PC + 2` else changes (R113; the digit order is the spec's own D12, `I` unchanged its D13, `PC + 2` its
D2). -/
def Obligations.BcdStoresThreeDigits : Prop :=
  ∀ (x : RegIx) (s : State), s.mem.wf = true →
    ∃ m : Memory, exec (.ldB x) s = .next { s with mem := m, pc := s.pcPlus 2 } ∧
      (m.read (s.dataAddr 0)).toNat = (s.getV x).toNat / 100 ∧
      (m.read (s.dataAddr 1)).toNat = (s.getV x).toNat / 10 % 10 ∧
      (m.read (s.dataAddr 2)).toNat = (s.getV x).toNat % 10 ∧
      ∀ a : Addr, (∀ k < 3, a ≠ s.dataAddr k) → m.read a = s.mem.read a

/-- `Fx55`: `V[k]` at `(I + k) mod 4096` for `k = 0..x`; every other byte reads as before; registers, `I` and all but
`PC + 2` stay (R114; `I` unchanged is the spec's own D13, `PC + 2` its D2). -/
def Obligations.StoreRegisterRun : Prop :=
  ∀ (x : RegIx) (s : State), s.mem.wf = true →
    ∃ m : Memory, exec (.stRegs x) s = .next { s with mem := m, pc := s.pcPlus 2 } ∧
      (∀ k : RegIx, k.val ≤ x.val → m.read (s.dataAddr k.val) = s.getV k) ∧
      ∀ a : Addr, (∀ k : RegIx, k.val ≤ x.val → a ≠ s.dataAddr k.val) → m.read a = s.mem.read a

/-- `Fx65`: `V[k]` gets the byte at `(I + k) mod 4096` for `k = 0..x`; registers above `Vx`, `I`, memory and all but
`PC + 2` stay (R115; `I` unchanged is the spec's own D13, `PC + 2` its D2). -/
def Obligations.LoadRegisterRun : Prop :=
  ∀ (x : RegIx) (s : State),
    ∃ v' : Vector Byte 16, exec (.ldRegs x) s = .next { s with v := v', pc := s.pcPlus 2 } ∧
      ∀ r : RegIx, v'[r] = if r.val ≤ x.val then s.mem.read (s.dataAddr r.val) else s.getV r

/-- What `Fx55` stored, `Fx65` of the same `x` loads back, at any `I` and across the wrap at `0xFFF` (R114, R115, R41,
R42): after the two, the registers are the old ones and `PC` is 4 further (`PC + 2` of each is the spec's own D2, log
entry 14; `I` unchanged its D13). -/
def Obligations.StoredRegistersLoadBack : Prop :=
  ∀ (x : RegIx) (s : State) (v' : Vector Byte 16), s.mem.wf = true →
    ∃ t u : State, exec (.stRegs x) s = .next t ∧ exec (.ldRegs x) { t with v := v' } = .next u ∧
      u.pc = s.pcPlus 4 ∧ u.ireg = s.ireg ∧
      ∀ r : RegIx, u.getV r = if r.val ≤ x.val then s.getV r else v'[r]

/-! ### Timers and random -/

/-- `Fx07`, `Fx15`, `Fx18`: `V[x] <- DT`, `DT <- V[x]`, `ST <- V[x]`; `PC + 2`, and nothing else, the timer read among
it, changes (R120 to R122; `PC + 2` is the spec's own D2). -/
def Obligations.TimerReadAndWrites : Prop :=
  ∀ (x : RegIx) (s : State),
    (∃ v' : Vector Byte 16, exec (.ldXDt x) s = .next { s with v := v', pc := s.pcPlus 2 } ∧
      ∀ r : RegIx, v'[r] = if r = x then s.dt else s.getV r) ∧
    exec (.ldDtX x) s = .next { s with dt := s.getV x, pc := s.pcPlus 2 } ∧
    exec (.ldStX x) s = .next { s with st := s.getV x, pc := s.pcPlus 2 }

/-- `Cxkk` makes one `NextByte()` call and puts the answer under the mask in `V[x]`, bit by bit; the answer is the
host's next byte, or a free value when the host's list is empty, whatever that value is (R123; D29, log entry 4;
`PC + 2` is the spec's own D2). -/
def Obligations.RandomByteUnderMask : Prop :=
  ∀ (x : RegIx) (kk : Byte) (s : State), ∃ (b : Byte) (v' : Vector Byte 16) (rest : List Byte) (ix : Nat),
    exec (.rnd x kk) s =
      .next { s with
        v := v', pc := s.pcPlus 2, calls := s.calls ++ [.nextByte], entropyIn := rest, freeIx := ix } ∧
    (s.entropyIn = b :: rest ∧ ix = s.freeIx ∨
      s.entropyIn = [] ∧ rest = [] ∧ b = freeByte s.freeIx ∧ ix = s.freeIx + 1) ∧
    ∀ (r : RegIx) (k : Fin 8), v'[r][k] = if r = x then b[k] && kk[k] else (s.getV r)[k]

/-! ### Display and keys -/

/-- `00E0`, for every value of the ignored nibble (D1), makes one `ClearScreen()` call and advances `PC` by 2; no
register and no byte of `Mem` changes (R130; the last is the spec's own D20). -/
def Obligations.ClearScreenCallsOnce : Prop :=
  ∀ (x : Nibble) (s : State),
    exec (.cls x) s = .next { s with pc := s.pcPlus 2, calls := s.calls ++ [.clearScreen] }

/-- `Dxyn` makes one `DrawSprite(V[x], V[y], rows)` call, row `k` the byte at `(I + k) mod 4096`, and writes `VF <- 1`
on a collision, else 0; `PC + 2`, and nothing else changes (R131; the rows' place is the spec's own D9, the flag's
value its D8, `PC + 2` its D2; the answer is the host's or a free value, log entry 4). -/
def Obligations.DrawReportsCollision : Prop :=
  ∀ (x y : RegIx) (n : Nibble) (s : State),
    ∃ (rows : List Byte) (c : Bool) (v' : Vector Byte 16) (rest : List Bool) (ix : Nat),
      exec (.drw x y n) s =
        .next { s with
          v := v', pc := s.pcPlus 2, calls := s.calls ++ [.drawSprite (s.getV x) (s.getV y) rows],
          collisionIn := rest, freeIx := ix } ∧
      (rows.length = n.toNat ∧ ∀ k < n.toNat, rows[k]? = some (s.mem.read (s.dataAddr k))) ∧
      (s.collisionIn = c :: rest ∧ ix = s.freeIx ∨
        s.collisionIn = [] ∧ rest = [] ∧ c = freeCollision s.freeIx ∧ ix = s.freeIx + 1) ∧
      ∀ r : RegIx, v'[r] = if r = 15 then (if c then 1 else 0) else s.getV r

/-- `Ex9E` and `ExA1` make one `IsKeyDown(c)` call and skip, or do not, by its answer; `c` is `V[x]` up to 15 and its low
four bits above 15 under `mask4`; nothing else changes. Above 15 under `refuse` the model gives no meaning (R132, R133;
the policy is the spec's own D10, log entry 3; the answer is the host's or a free value, log entry 4). -/
def Obligations.SkipOnKey : Prop :=
  ∀ (x : RegIx) (s : State) (c : KeyCode), c.val = (s.getV x).toNat % 16 →
    ((s.getV x).toNat ≤ 15 ∨ s.cfg.keyCodePolicy = .mask4 →
      ∃ (d : Bool) (rest : List Bool) (ix : Nat),
        (s.keyIn = d :: rest ∧ ix = s.freeIx ∨
          s.keyIn = [] ∧ rest = [] ∧ d = freeKeyDown s.freeIx ∧ ix = s.freeIx + 1) ∧
        exec (.skp x) s =
          .next { s with
            pc := if d then s.pcPlus 4 else s.pcPlus 2, calls := s.calls ++ [.isKeyDown c], keyIn := rest,
            freeIx := ix } ∧
        exec (.sknp x) s =
          .next { s with
            pc := if d then s.pcPlus 2 else s.pcPlus 4, calls := s.calls ++ [.isKeyDown c], keyIn := rest,
            freeIx := ix }) ∧
    ((s.getV x).toNat > 15 → s.cfg.keyCodePolicy = .refuse →
      exec (.skp x) s = .refused .keyCodeAbove15 ∧ exec (.sknp x) s = .refused .keyCodeAbove15)

/-- `Fx0A`: its `Step` only suspends the engine; while the engine waits at it, `KeyEvent(k)` stores `k` in `V[x]`,
moves `PC` on by 2 and makes the engine `Ready`; nothing else changes (R134, R135). -/
def Obligations.KeyWaitCompletesAtKeyEvent : Prop :=
  ∀ (x : RegIx) (s : State),
    exec (.ldXK x) s = .next { s with engine := .awaitingKey } ∧
    ∀ (w : Word) (k : KeyCode) (rest : List Transaction),
      s.phase = .running → s.engine = .awaitingKey → fetch s.prog s.pc = .word w → decode w = .ldXK x →
      s.agenda = .keyEvent k :: rest →
      ∃ v' : Vector Byte 16,
        step s = .next { s with v := v', pc := s.pcPlus 2, engine := .ready, agenda := rest } ∧
        ∀ r : RegIx, v'[r].toNat = if r = x then k.val else (s.getV r).toNat

/-! ### Whole-machine rules -/

/-- Every variant but the jumps, the call, the return, the skips and `Fx0A` advances `PC` by exactly 2 (R14; the blank
cells of the source's table are the spec's own D2). -/
def Obligations.OtherVariantsAdvanceByTwo : Prop :=
  ∀ (i : Instr) (s t : State), exec i s = .next t →
    i.variant ∉ [.jp, .call, .ret, .jpV0, .seImm, .sneImm, .seReg, .sneReg, .skp, .sknp, .ldXK] →
    t.pc = s.pcPlus 2

/-- An instruction leaves every general register unchanged that the access table of R10 does not list for it; so only
`8xy4` to `8xy7`, `8xyE` and `Dxyn` write `VF` without naming it (R10, R11: the table is the spec's own derivation). -/
def Obligations.RegistersOutsideWriteTableStay : Prop :=
  ∀ (i : Instr) (s t : State) (r : RegIx), exec i s = .next t → mayWriteReg i r = false → t.getV r = s.getV r

/-- Only `Annn`, `Fx1E` and `Fx29` write `I`, only `Fx15` writes `DT`, only `Fx18` writes `ST`: no instruction counts a
timer down (R12, R21, R22; that the memory variants leave `I` is the spec's own D13). -/
def Obligations.OnlyListedVariantsWriteIAndTimers : Prop :=
  ∀ (i : Instr) (s t : State), exec i s = .next t →
    (i.variant ∉ [.ldI, .addI, .ldF] → t.ireg = s.ireg) ∧
    (i.variant ≠ .ldDtX → t.dt = s.dt) ∧ (i.variant ≠ .ldStX → t.st = s.st)

/-- Only `Fx33` and `Fx55` write `Mem`; only `2nnn` and `00EE` change the stack or `SP`, and `00EE` writes no entry
(R30, R17, R18). -/
def Obligations.OnlyListedVariantsWriteMemAndStack : Prop :=
  ∀ (i : Instr) (s t : State), exec i s = .next t →
    (i.variant ∉ [.ldB, .stRegs] → t.mem = s.mem) ∧
    (i.variant ≠ .call → t.stack = s.stack) ∧ (i.variant ∉ [.call, .ret] → t.sp = s.sp)

/-- What an instruction does to `ES` (R23): `Fx0A` suspends, a call with a full stack and a return with an empty one
halt, and no other changes it. -/
def Obligations.EngineAfterInstr : Prop :=
  ∀ (i : Instr) (s t : State), exec i s = .next t →
    t.engine =
      if i.variant = .ldXK then .awaitingKey
      else if i.variant = .call ∧ s.sp.val = 16 then .halted .stackOverflow
      else if i.variant = .ret ∧ s.sp.val = 0 then .halted .stackUnderflow
      else s.engine

/-- Each capability is called by exactly the variants of R6, once for each execution, and by no other. -/
def Obligations.CapabilityCallsByVariant : Prop :=
  ∀ (i : Instr) (s t : State), exec i s = .next t →
    match i.variant with
    | .cls => t.calls = s.calls ++ [.clearScreen]
    | .drw => ∃ x y rows, t.calls = s.calls ++ [.drawSprite x y rows]
    | .skp => ∃ c, t.calls = s.calls ++ [.isKeyDown c]
    | .sknp => ∃ c, t.calls = s.calls ++ [.isKeyDown c]
    | .rnd => t.calls = s.calls ++ [.nextByte]
    | _ => t.calls = s.calls

/-- Stores are never seen by fetch: no transaction of a running core changes `Prog`, the parameters or the launch
(R24, R46, R161), so the word at each address stays what `Load` put there. -/
def Obligations.ProgramNeverChangesOnceRunning : Prop :=
  ∀ (s t : State), s.phase = .running → step s = .next t →
    t.prog = s.prog ∧ t.cfg = s.cfg ∧ t.phase = .running ∧ ∀ a : Addr, fetch t.prog a = fetch s.prog a

/-- What `Mem` holds is seen by `Dxyn` and `Fx65` only (R30): any other instruction run on two states that differ only
in `Mem` gives two states that differ at most in `Mem`. -/
def Obligations.MemSeenOnlyByItsReaders : Prop :=
  ∀ (i : Instr) (s t : State) (m : Memory), i.variant ∉ [.drw, .ldRegs] → exec i s = .next t →
    ∃ m' : Memory, exec i { s with mem := m } = .next { t with mem := m' }

/-- A `TimerTick` before an instruction that touches no timer is the same as one after it (R45; that the two are atomic
is the spec's own D15). -/
def Obligations.TickCommutesWithInstr : Prop :=
  ∀ (i : Instr) (s t : State), i.variant ∉ [.ldXDt, .ldDtX, .ldStX] → exec i s = .next t →
    exec i s.timerTick = .next t.timerTick

/-! ### Host events, reset, launch -/

/-- `n` ticks take `n` from each timer, down to 0 and no further, in any engine state, and touch nothing else (R150;
stopping at 0 is the spec's own D14, G5, every engine state its D15). -/
def Obligations.TicksCountDownToZero : Prop :=
  ∀ (n : Nat) (s : State) (rest : List Transaction), s.phase = .running →
    s.agenda = List.replicate n .timerTick ++ rest →
    ∃ d e : Byte, runFor n s = .next { s with dt := d, st := e, agenda := rest } ∧
      d.toNat = s.dt.toNat - n ∧ e.toNat = s.st.toNat - n

/-- `Reset`, after a successful `Load`, in every engine state: registers, `I`, `SP` and the timers 0, `PC = 0x200`,
`ES = Ready`; `Mem`, `Prog`, the stack entries and the host's side stay (R160, R161; the spec's own D17). -/
def Obligations.ResetRestoresResetValues : Prop :=
  ∀ (s : State) (rest : List Transaction), s.phase = .running ∨ s.phase = .loaded → s.agenda = .reset :: rest →
    ∃ v' : Vector Byte 16,
      step s = .next { s with
        v := v', ireg := 0, pc := 0x200, sp := 0, dt := 0, st := 0, engine := .ready, phase := .running,
        agenda := rest } ∧
      ∀ r : RegIx, v'[r] = 0

/-- `Load` first checks that the length is even, then that it is at most `MAX_PROGRAM_LEN`; an error writes nothing
(R38; the order of the checks is the spec's own D25). -/
def Obligations.LoadErrorsWriteNothing : Prop :=
  ∀ (s : State) (rom : List Byte) (rest : List Transaction), s.phase = .noProgram → s.agenda = .load rom :: rest →
    (rom.length % 2 = 1 → step s = .next { s with phase := .loadFailed .oddLength, agenda := rest }) ∧
    (rom.length % 2 = 0 → rom.length > 4096 - 512 - s.cfg.displayRegionSize →
      step s = .next { s with phase := .loadFailed .tooLarge, agenda := rest })

/-- A `Load` within bounds, then `Reset`: the core runs at `0x200`; each word of the rom, big-endian, is fetched at its
address; the rom's bytes are in `Mem` from `0x200` on and every other byte is as before (R38, R39, R31, R162). -/
def Obligations.LoadThenResetRunsProgram : Prop :=
  ∀ (s : State) (rom : List Byte) (rest : List Transaction), s.phase = .noProgram → s.mem.wf = true →
    s.agenda = .load rom :: .reset :: rest → rom.length % 2 = 0 →
    rom.length ≤ 4096 - 512 - s.cfg.displayRegionSize →
    ∃ t : State, runFor 2 s = .next t ∧ t.phase = .running ∧ t.engine = .ready ∧ t.pc = 0x200 ∧ t.agenda = rest ∧
      t.prog.length = rom.length / 2 ∧
      (∀ (k : Nat) (l r : Byte), rom[2 * k]? = some l → rom[2 * k + 1]? = some r →
        fetch t.prog (BitVec.ofNat 12 (0x200 + 2 * k)) = .word (BitVec.ofNat 16 (l.toNat * 256 + r.toNat))) ∧
      (∀ (j : Nat) (b : Byte), rom[j]? = some b → t.mem.read (BitVec.ofNat 12 (0x200 + j)) = b) ∧
      ∀ a : Addr, a.toNat < 0x200 ∨ 0x200 + rom.length ≤ a.toNat → t.mem.read a = s.mem.read a

/-- What the spec gives no meaning in the launch order is refused: everything but `Load` before a successful `Load`,
everything but `Reset` and `Load` between `Load` and `Reset`, and a second `Load` (R162, R163, U10; the spec's own D28). -/
def Obligations.LaunchOrderIsEnforced : Prop :=
  ∀ (s : State) (t : Transaction) (rest : List Transaction), s.agenda = t :: rest →
    ((∀ rom, t ≠ .load rom) → s.phase = .noProgram → step s = .refused .noProgram) ∧
    (∀ e, s.phase = .loadFailed e → step s = .refused .noProgram) ∧
    ((∀ rom, t ≠ .load rom) → t ≠ .reset → s.phase = .loaded → step s = .refused .notReset) ∧
    (∀ rom, t = .load rom → s.phase = .loaded ∨ s.phase = .running → step s = .refused .secondLoad)

/-! ### Invariants and runs -/

/-- The invariant holds after reset. -/
def Obligations.ResetStateHasInv : Prop := State.reset.Inv

/-- Every transaction keeps the invariant: memory stays in canonical form; a loaded program fits; every live stack entry
is the address after a call of the program; a wait stands at its `Fx0A`; a halt names its cause (R13, R18, R26, R33,
R71, R142). -/
def Obligations.StepKeepsInv : Prop := ∀ s t : State, s.Inv → step s = .next t → t.Inv

/-- `PC` stays even in a program whose jumps and calls have even targets and that has no `Bnnn` (R16, R28: the spec's
own derivation), from any state that keeps the invariant. -/
def Obligations.EvenTargetsKeepPcEven : Prop :=
  ∀ s t : State, s.Inv → s.phase = .running → evenTargets s.prog = true → s.pc.toNat % 2 = 0 → step s = .next t →
    t.pc.toNat % 2 = 0

/-- Only `Reset` leaves `Halted`: over any number of transactions without one, `ES`, `PC`, the registers, `I`, the
stack, `Mem` and the calls made stay (R148; the spec's own D30). -/
def Obligations.HaltedIsAbsorbingWithoutReset : Prop :=
  ∀ (n : Nat) (s t : State) (e : ExecFault), s.phase = .running → s.engine = .halted e → noReset s.agenda →
    runFor n s = .next t → t = { s with dt := t.dt, st := t.st, agenda := t.agenda }

/-- Only a `KeyEvent` or `Reset` ends the key wait: over any number of `Step`s and `TimerTick`s it goes on, the model
does not stop, and nothing but the timers changes (R156, R134). -/
def Obligations.KeyWaitOutlastsStepsAndTicks : Prop :=
  ∀ (n : Nat) (s : State), s.phase = .running → s.engine = .awaitingKey → onlyStepsAndTicks s.agenda →
    ∃ t : State, runFor n s = .next t ∧ t = { s with dt := t.dt, st := t.st, agenda := t.agenda }

/-- What a host that keeps its duties brings about (R172): under weakly fair ticks, `DT` reaches 0 and stays there once
`PC` stands at no `Fx15` any more, and `ST` likewise without `Fx18`, in any engine state; a key wait ends once a
`KeyEvent` comes. The fairness premises are on the schedule, none is built into `step` (log entry 5; a timer that stays
at 0 is the spec's own D14, ticks in every engine state its D15, a halted core stays halted by its D30). -/
def Obligations.FairHostEndsTimerAndKeyWaits : Prop :=
  ∀ (h : Schedule) (σ : Nat → State) (n : Nat), HostRun h σ → (σ 0).phase = .running →
    (ticksWeaklyFair h → neverAt .ldDtX σ n → ∃ k, n ≤ k ∧ ∀ m, k ≤ m → (σ m).dt = 0) ∧
    (ticksWeaklyFair h → neverAt .ldStX σ n → ∃ k, n ≤ k ∧ ∀ m, k ≤ m → (σ m).st = 0) ∧
    ((σ n).engine = .awaitingKey → keyEventComes h n → ∃ k, n < k ∧ (σ k).engine = .ready)

/-- In a state that is terminal by convention, further `Step`s and `TimerTick`s change nothing but the timers (R175:
the convention is the spec's own D23). -/
def Obligations.TerminalStateStays : Prop :=
  ∀ (n : Nat) (s : State), s.phase = .running → s.terminal = true → onlyStepsAndTicks s.agenda →
    ∃ t : State, runFor n s = .next t ∧ t.terminal = true ∧
      t = { s with dt := t.dt, st := t.st, agenda := t.agenda }

/-- Equal contents of `Mem` are equal data: two memories in canonical form that read alike are the same (the model's
representation, log entry 1; R30, R41). -/
def Obligations.MemoriesThatReadAlikeAreEqual : Prop :=
  ∀ m m' : Memory, m.wf = true → m'.wf = true → (∀ a : Addr, m.read a = m'.read a) → m = m'

/-- The listing has one line a word; line `k` is rendered at the cursor plus `2*k`, whatever the words before it are
(R62). -/
def Obligations.ListingCursorAdvancesByTwo : Prop :=
  ∀ (prog : List Word) (cursor : Word),
    (listing cursor prog).length = prog.length ∧
    ∀ (k : Nat) (w : Word), prog[k]? = some w →
      (listing cursor prog)[k]? = some (listingLine (cursor + BitVec.ofNat 16 (2 * k)) w)

end
end

