-- ==== Sys2Proof/Laws/Decode.lean ====
section
/-! SUPPORT. Fields and words as numbers: what each field of a word is, what each format builds, and a field of a built
word. -/

namespace Sys2Proof

/-! ### Fields as numbers (R51) -/

theorem toNat_familyOf (w : Word) : (familyOf w).toNat = w.toNat / 4096 := by
  have := w.isLt
  simp [familyOf, BitVec.extractLsb'_toNat, Nat.shiftRight_eq_div_pow]
  omega

theorem toNat_xBits (w : Word) : (xBits w).toNat = w.toNat / 256 % 16 := by
  simp [xBits, BitVec.extractLsb'_toNat, Nat.shiftRight_eq_div_pow]

theorem val_xOf (w : Word) : (xOf w).val = w.toNat / 256 % 16 := toNat_xBits w

theorem val_yOf (w : Word) : (yOf w).val = w.toNat / 16 % 16 := by
  change (w.extractLsb' 4 4).toNat = _
  simp [BitVec.extractLsb'_toNat, Nat.shiftRight_eq_div_pow]

theorem toNat_nOf (w : Word) : (nOf w).toNat = w.toNat % 16 := by
  simp [nOf, BitVec.extractLsb'_toNat]

theorem toNat_kkOf (w : Word) : (kkOf w).toNat = w.toNat % 256 := by
  simp [kkOf, BitVec.extractLsb'_toNat]

theorem toNat_nnnOf (w : Word) : (nnnOf w).toNat = w.toNat % 4096 := by
  simp [nnnOf, BitVec.extractLsb'_toNat]

/-- `w = l*256 + r` (R31). -/
theorem toNat_wordOfBytes (l r : Byte) : (wordOfBytes l r).toNat = l.toNat * 256 + r.toNat := by
  have h : (wordOfBytes l r).toNat = l.toNat <<< 8 ||| r.toNat := BitVec.toNat_append l r
  rw [h, ← Nat.shiftLeft_add_eq_or_of_lt r.isLt, Nat.shiftLeft_eq]

/-! ### The formats as numbers (R54) -/

theorem toNat_wordNNN (f : Nibble) (a : Addr) : (wordNNN f a).toNat = f.toNat * 4096 + a.toNat := by
  have h : (wordNNN f a).toNat = f.toNat <<< 12 ||| a.toNat := BitVec.toNat_append f a
  rw [h, ← Nat.shiftLeft_add_eq_or_of_lt a.isLt, Nat.shiftLeft_eq]

theorem toNat_append_nibbles (f x : Nibble) : (f ++ x : BitVec (4 + 4)).toNat = f.toNat * 16 + x.toNat := by
  rw [BitVec.toNat_append, ← Nat.shiftLeft_add_eq_or_of_lt x.isLt, Nat.shiftLeft_eq]

theorem toNat_wordXKK (f x : Nibble) (kk : Byte) :
    (wordXKK f x kk).toNat = f.toNat * 4096 + x.toNat * 256 + kk.toNat := by
  have h : (wordXKK f x kk).toNat = (f ++ x : BitVec (4 + 4)).toNat <<< 8 ||| kk.toNat := BitVec.toNat_append _ kk
  rw [h, ← Nat.shiftLeft_add_eq_or_of_lt kk.isLt, Nat.shiftLeft_eq, toNat_append_nibbles]
  omega

theorem toNat_wordXYN (f x y n : Nibble) :
    (wordXYN f x y n).toNat = f.toNat * 4096 + x.toNat * 256 + y.toNat * 16 + n.toNat := by
  have h1 : (f ++ x ++ y : BitVec (4 + 4 + 4)).toNat = (f ++ x : BitVec (4 + 4)).toNat <<< 4 ||| y.toNat :=
    BitVec.toNat_append _ y
  have h : (wordXYN f x y n).toNat = (f ++ x ++ y : BitVec (4 + 4 + 4)).toNat <<< 4 ||| n.toNat :=
    BitVec.toNat_append _ n
  rw [h, ← Nat.shiftLeft_add_eq_or_of_lt n.isLt, Nat.shiftLeft_eq, h1, ← Nat.shiftLeft_add_eq_or_of_lt y.isLt,
    Nat.shiftLeft_eq, toNat_append_nibbles]
  omega

theorem toNat_regBits (x : RegIx) : (regBits x).toNat = x.val := rfl

/-! ### A field of a built word -/

@[simp] theorem familyOf_wordNNN (f : Nibble) (a : Addr) : familyOf (wordNNN f a) = f := by
  apply BitVec.eq_of_toNat_eq; rw [toNat_familyOf, toNat_wordNNN]; have := a.isLt; omega

@[simp] theorem nnnOf_wordNNN (f : Nibble) (a : Addr) : nnnOf (wordNNN f a) = a := by
  apply BitVec.eq_of_toNat_eq; rw [toNat_nnnOf, toNat_wordNNN]; have := a.isLt; omega

@[simp] theorem kkOf_wordNNN (f : Nibble) (a : Addr) : kkOf (wordNNN f a) = a.extractLsb' 0 8 := by
  apply BitVec.eq_of_toNat_eq
  rw [toNat_kkOf, toNat_wordNNN]
  simp only [BitVec.extractLsb'_toNat, Nat.shiftRight_zero]
  omega

@[simp] theorem familyOf_wordXKK (f x : Nibble) (kk : Byte) : familyOf (wordXKK f x kk) = f := by
  apply BitVec.eq_of_toNat_eq; rw [toNat_familyOf, toNat_wordXKK]; have := kk.isLt; have := x.isLt; omega

@[simp] theorem xBits_wordXKK (f x : Nibble) (kk : Byte) : xBits (wordXKK f x kk) = x := by
  apply BitVec.eq_of_toNat_eq; rw [toNat_xBits, toNat_wordXKK]; have := kk.isLt; have := x.isLt; omega

@[simp] theorem xOf_wordXKK (f : Nibble) (x : RegIx) (kk : Byte) : xOf (wordXKK f (regBits x) kk) = x := by
  apply Fin.ext; rw [val_xOf, toNat_wordXKK, toNat_regBits]; have := kk.isLt; have := x.isLt; omega

@[simp] theorem kkOf_wordXKK (f x : Nibble) (kk : Byte) : kkOf (wordXKK f x kk) = kk := by
  apply BitVec.eq_of_toNat_eq; rw [toNat_kkOf, toNat_wordXKK]; have := kk.isLt; omega

@[simp] theorem familyOf_wordXYN (f x y n : Nibble) : familyOf (wordXYN f x y n) = f := by
  apply BitVec.eq_of_toNat_eq; rw [toNat_familyOf, toNat_wordXYN]
  have := n.isLt; have := y.isLt; have := x.isLt; omega

@[simp] theorem xOf_wordXYN (f y n : Nibble) (x : RegIx) : xOf (wordXYN f (regBits x) y n) = x := by
  apply Fin.ext; rw [val_xOf, toNat_wordXYN, toNat_regBits]
  have := n.isLt; have := y.isLt; have := x.isLt; omega

@[simp] theorem yOf_wordXYN (f x n : Nibble) (y : RegIx) : yOf (wordXYN f x (regBits y) n) = y := by
  apply Fin.ext; rw [val_yOf, toNat_wordXYN, toNat_regBits]
  have := n.isLt; have := y.isLt; have := x.isLt; omega

@[simp] theorem nOf_wordXYN (f x y n : Nibble) : nOf (wordXYN f x y n) = n := by
  apply BitVec.eq_of_toNat_eq; rw [toNat_nOf, toNat_wordXYN]; have := n.isLt; omega

/-! ### A word from its fields -/

theorem wordNNN_fields (w : Word) : wordNNN (familyOf w) (nnnOf w) = w := by
  apply BitVec.eq_of_toNat_eq; rw [toNat_wordNNN, toNat_familyOf, toNat_nnnOf]; omega

theorem wordXKK_fields (w : Word) : wordXKK (familyOf w) (xBits w) (kkOf w) = w := by
  apply BitVec.eq_of_toNat_eq; rw [toNat_wordXKK, toNat_familyOf, toNat_xBits, toNat_kkOf]; omega

theorem wordXYN_fields (w : Word) : wordXYN (familyOf w) (xBits w) (regBits (yOf w)) (nOf w) = w := by
  apply BitVec.eq_of_toNat_eq
  rw [toNat_wordXYN, toNat_familyOf, toNat_xBits, toNat_regBits, val_yOf, toNat_nOf]
  omega

/-! ### A word under the three masks of the opcode map (R55) -/

theorem and_familyMask (w : Word) : w &&& 0xF000 = wordNNN (familyOf w) 0 := by
  have h : wordNNN (familyOf w) (nnnOf w) &&& wordNNN 0xF 0#12 = wordNNN (familyOf w &&& 0xF) (nnnOf w &&& 0#12) :=
    BitVec.and_append
  have e : (0xF : Nibble) = BitVec.allOnes 4 := rfl
  rw [wordNNN_fields, e, BitVec.and_allOnes, BitVec.and_zero] at h
  exact h

theorem and_byteMask (w : Word) : w &&& 0xF0FF = wordXKK (familyOf w) 0 (kkOf w) := by
  have h : wordXKK (familyOf w) (xBits w) (kkOf w) &&& wordXKK 0xF 0#4 0xFF
      = (((familyOf w ++ xBits w : BitVec (4 + 4)) &&& ((0xF : Nibble) ++ 0#4)) ++
          (kkOf w &&& (0xFF : Byte)) : BitVec (4 + 4 + 8)) := BitVec.and_append
  have e : (0xF : Nibble) = BitVec.allOnes 4 := rfl
  have e' : (0xFF : Byte) = BitVec.allOnes 8 := rfl
  rw [wordXKK_fields, BitVec.and_append, e', BitVec.and_allOnes, e, BitVec.and_allOnes, BitVec.and_zero] at h
  exact h

theorem and_nibbleMask (w : Word) : w &&& 0xF00F = wordXYN (familyOf w) 0 0 (nOf w) := by
  have h : wordXYN (familyOf w) (xBits w) (regBits (yOf w)) (nOf w) &&& wordXYN 0xF 0#4 0#4 0xF
      = (((familyOf w ++ xBits w ++ regBits (yOf w) : BitVec (4 + 4 + 4)) &&&
          ((0xF : Nibble) ++ 0#4 ++ 0#4)) ++ (nOf w &&& (0xF : Nibble)) : BitVec (4 + 4 + 4 + 4)) :=
    BitVec.and_append
  have e : (0xF : Nibble) = BitVec.allOnes 4 := rfl
  rw [wordXYN_fields, BitVec.and_append, BitVec.and_append, e, BitVec.and_allOnes, BitVec.and_allOnes,
    BitVec.and_zero, BitVec.and_zero] at h
  exact h

theorem regBits_xOf (w : Word) : regBits (xOf w) = xBits w := rfl

/-! ### The decoder, family by family (R53) -/

theorem decode_family0 (w : Word) (h : familyOf w = 0x0) : decode w = decode0 w := by
  unfold decode; rw [h]; rfl

theorem decode_family1 (w : Word) (h : familyOf w = 0x1) : decode w = .jp (nnnOf w) := by
  unfold decode; rw [h]; rfl

theorem decode_family2 (w : Word) (h : familyOf w = 0x2) : decode w = .call (nnnOf w) := by
  unfold decode; rw [h]; rfl

theorem decode_family3 (w : Word) (h : familyOf w = 0x3) : decode w = .seImm (xOf w) (kkOf w) := by
  unfold decode; rw [h]; rfl

theorem decode_family4 (w : Word) (h : familyOf w = 0x4) : decode w = .sneImm (xOf w) (kkOf w) := by
  unfold decode; rw [h]; rfl

theorem decode_family5 (w : Word) (h : familyOf w = 0x5) : decode w = .seReg (xOf w) (yOf w) (nOf w) := by
  unfold decode; rw [h]; rfl

theorem decode_family6 (w : Word) (h : familyOf w = 0x6) : decode w = .ldImm (xOf w) (kkOf w) := by
  unfold decode; rw [h]; rfl

theorem decode_family7 (w : Word) (h : familyOf w = 0x7) : decode w = .addImm (xOf w) (kkOf w) := by
  unfold decode; rw [h]; rfl

theorem decode_family8 (w : Word) (h : familyOf w = 0x8) : decode w = decode8 w := by
  unfold decode; rw [h]; rfl

theorem decode_family9 (w : Word) (h : familyOf w = 0x9) : decode w = .sneReg (xOf w) (yOf w) (nOf w) := by
  unfold decode; rw [h]; rfl

theorem decode_familyA (w : Word) (h : familyOf w = 0xA) : decode w = .ldI (nnnOf w) := by
  unfold decode; rw [h]; rfl

theorem decode_familyB (w : Word) (h : familyOf w = 0xB) : decode w = .jpV0 (nnnOf w) := by
  unfold decode; rw [h]; rfl

theorem decode_familyC (w : Word) (h : familyOf w = 0xC) : decode w = .rnd (xOf w) (kkOf w) := by
  unfold decode; rw [h]; rfl

theorem decode_familyD (w : Word) (h : familyOf w = 0xD) : decode w = .drw (xOf w) (yOf w) (nOf w) := by
  unfold decode; rw [h]; rfl

theorem decode_familyE (w : Word) (h : familyOf w = 0xE) : decode w = decodeE w := by
  unfold decode; rw [h]; rfl

theorem decode_familyF (w : Word) (h : familyOf w = 0xF) : decode w = decodeF w := by
  unfold decode; rw [h]; rfl

/-- A word's family is one of the sixteen. -/
theorem familyOf_cases (w : Word) :
    familyOf w = 0x0 ∨ familyOf w = 0x1 ∨ familyOf w = 0x2 ∨ familyOf w = 0x3 ∨ familyOf w = 0x4 ∨
    familyOf w = 0x5 ∨ familyOf w = 0x6 ∨ familyOf w = 0x7 ∨ familyOf w = 0x8 ∨ familyOf w = 0x9 ∨
    familyOf w = 0xA ∨ familyOf w = 0xB ∨ familyOf w = 0xC ∨ familyOf w = 0xD ∨ familyOf w = 0xE ∨
    familyOf w = 0xF := by
  generalize familyOf w = f
  revert f
  decide

end Sys2Proof
end

