-- ==== Sys2Proof/Laws/State.lean ====
section
/-! SUPPORT. One lemma for each field and each update of the state, true by rfl, and the register accessors. -/

namespace Sys2Proof.Machine

/-! ### `State.setV` -/

@[simp] theorem State.setV_v (s : State) (i : RegIx) (b : Byte) : (s.setV i b).v = s.v.set i b := rfl
@[simp] theorem State.setV_ireg (s : State) (i : RegIx) (b : Byte) : (s.setV i b).ireg = s.ireg := rfl
@[simp] theorem State.setV_pc (s : State) (i : RegIx) (b : Byte) : (s.setV i b).pc = s.pc := rfl
@[simp] theorem State.setV_stack (s : State) (i : RegIx) (b : Byte) : (s.setV i b).stack = s.stack := rfl
@[simp] theorem State.setV_sp (s : State) (i : RegIx) (b : Byte) : (s.setV i b).sp = s.sp := rfl
@[simp] theorem State.setV_dt (s : State) (i : RegIx) (b : Byte) : (s.setV i b).dt = s.dt := rfl
@[simp] theorem State.setV_st (s : State) (i : RegIx) (b : Byte) : (s.setV i b).st = s.st := rfl
@[simp] theorem State.setV_engine (s : State) (i : RegIx) (b : Byte) : (s.setV i b).engine = s.engine := rfl
@[simp] theorem State.setV_mem (s : State) (i : RegIx) (b : Byte) : (s.setV i b).mem = s.mem := rfl
@[simp] theorem State.setV_prog (s : State) (i : RegIx) (b : Byte) : (s.setV i b).prog = s.prog := rfl
@[simp] theorem State.setV_cfg (s : State) (i : RegIx) (b : Byte) : (s.setV i b).cfg = s.cfg := rfl
@[simp] theorem State.setV_phase (s : State) (i : RegIx) (b : Byte) : (s.setV i b).phase = s.phase := rfl
@[simp] theorem State.setV_agenda (s : State) (i : RegIx) (b : Byte) : (s.setV i b).agenda = s.agenda := rfl
@[simp] theorem State.setV_calls (s : State) (i : RegIx) (b : Byte) : (s.setV i b).calls = s.calls := rfl
@[simp] theorem State.setV_entropyIn (s : State) (i : RegIx) (b : Byte) : (s.setV i b).entropyIn = s.entropyIn := rfl
@[simp] theorem State.setV_collisionIn (s : State) (i : RegIx) (b : Byte) : (s.setV i b).collisionIn = s.collisionIn := rfl
@[simp] theorem State.setV_keyIn (s : State) (i : RegIx) (b : Byte) : (s.setV i b).keyIn = s.keyIn := rfl
@[simp] theorem State.setV_freeIx (s : State) (i : RegIx) (b : Byte) : (s.setV i b).freeIx = s.freeIx := rfl

/-! ### `State.setI` -/

@[simp] theorem State.setI_v (s : State) (a : Addr) : (s.setI a).v = s.v := rfl
@[simp] theorem State.setI_ireg (s : State) (a : Addr) : (s.setI a).ireg = a := rfl
@[simp] theorem State.setI_pc (s : State) (a : Addr) : (s.setI a).pc = s.pc := rfl
@[simp] theorem State.setI_stack (s : State) (a : Addr) : (s.setI a).stack = s.stack := rfl
@[simp] theorem State.setI_sp (s : State) (a : Addr) : (s.setI a).sp = s.sp := rfl
@[simp] theorem State.setI_dt (s : State) (a : Addr) : (s.setI a).dt = s.dt := rfl
@[simp] theorem State.setI_st (s : State) (a : Addr) : (s.setI a).st = s.st := rfl
@[simp] theorem State.setI_engine (s : State) (a : Addr) : (s.setI a).engine = s.engine := rfl
@[simp] theorem State.setI_mem (s : State) (a : Addr) : (s.setI a).mem = s.mem := rfl
@[simp] theorem State.setI_prog (s : State) (a : Addr) : (s.setI a).prog = s.prog := rfl
@[simp] theorem State.setI_cfg (s : State) (a : Addr) : (s.setI a).cfg = s.cfg := rfl
@[simp] theorem State.setI_phase (s : State) (a : Addr) : (s.setI a).phase = s.phase := rfl
@[simp] theorem State.setI_agenda (s : State) (a : Addr) : (s.setI a).agenda = s.agenda := rfl
@[simp] theorem State.setI_calls (s : State) (a : Addr) : (s.setI a).calls = s.calls := rfl
@[simp] theorem State.setI_entropyIn (s : State) (a : Addr) : (s.setI a).entropyIn = s.entropyIn := rfl
@[simp] theorem State.setI_collisionIn (s : State) (a : Addr) : (s.setI a).collisionIn = s.collisionIn := rfl
@[simp] theorem State.setI_keyIn (s : State) (a : Addr) : (s.setI a).keyIn = s.keyIn := rfl
@[simp] theorem State.setI_freeIx (s : State) (a : Addr) : (s.setI a).freeIx = s.freeIx := rfl
@[simp] theorem State.setI_getV (s : State) (a : Addr) (r : RegIx) : (s.setI a).getV r = s.getV r := rfl

/-! ### `State.setPc` -/

@[simp] theorem State.setPc_v (s : State) (a : Addr) : (s.setPc a).v = s.v := rfl
@[simp] theorem State.setPc_ireg (s : State) (a : Addr) : (s.setPc a).ireg = s.ireg := rfl
@[simp] theorem State.setPc_pc (s : State) (a : Addr) : (s.setPc a).pc = a := rfl
@[simp] theorem State.setPc_stack (s : State) (a : Addr) : (s.setPc a).stack = s.stack := rfl
@[simp] theorem State.setPc_sp (s : State) (a : Addr) : (s.setPc a).sp = s.sp := rfl
@[simp] theorem State.setPc_dt (s : State) (a : Addr) : (s.setPc a).dt = s.dt := rfl
@[simp] theorem State.setPc_st (s : State) (a : Addr) : (s.setPc a).st = s.st := rfl
@[simp] theorem State.setPc_engine (s : State) (a : Addr) : (s.setPc a).engine = s.engine := rfl
@[simp] theorem State.setPc_mem (s : State) (a : Addr) : (s.setPc a).mem = s.mem := rfl
@[simp] theorem State.setPc_prog (s : State) (a : Addr) : (s.setPc a).prog = s.prog := rfl
@[simp] theorem State.setPc_cfg (s : State) (a : Addr) : (s.setPc a).cfg = s.cfg := rfl
@[simp] theorem State.setPc_phase (s : State) (a : Addr) : (s.setPc a).phase = s.phase := rfl
@[simp] theorem State.setPc_agenda (s : State) (a : Addr) : (s.setPc a).agenda = s.agenda := rfl
@[simp] theorem State.setPc_calls (s : State) (a : Addr) : (s.setPc a).calls = s.calls := rfl
@[simp] theorem State.setPc_entropyIn (s : State) (a : Addr) : (s.setPc a).entropyIn = s.entropyIn := rfl
@[simp] theorem State.setPc_collisionIn (s : State) (a : Addr) : (s.setPc a).collisionIn = s.collisionIn := rfl
@[simp] theorem State.setPc_keyIn (s : State) (a : Addr) : (s.setPc a).keyIn = s.keyIn := rfl
@[simp] theorem State.setPc_freeIx (s : State) (a : Addr) : (s.setPc a).freeIx = s.freeIx := rfl
@[simp] theorem State.setPc_getV (s : State) (a : Addr) (r : RegIx) : (s.setPc a).getV r = s.getV r := rfl

/-! ### `State.setDt` -/

@[simp] theorem State.setDt_v (s : State) (b : Byte) : (s.setDt b).v = s.v := rfl
@[simp] theorem State.setDt_ireg (s : State) (b : Byte) : (s.setDt b).ireg = s.ireg := rfl
@[simp] theorem State.setDt_pc (s : State) (b : Byte) : (s.setDt b).pc = s.pc := rfl
@[simp] theorem State.setDt_stack (s : State) (b : Byte) : (s.setDt b).stack = s.stack := rfl
@[simp] theorem State.setDt_sp (s : State) (b : Byte) : (s.setDt b).sp = s.sp := rfl
@[simp] theorem State.setDt_dt (s : State) (b : Byte) : (s.setDt b).dt = b := rfl
@[simp] theorem State.setDt_st (s : State) (b : Byte) : (s.setDt b).st = s.st := rfl
@[simp] theorem State.setDt_engine (s : State) (b : Byte) : (s.setDt b).engine = s.engine := rfl
@[simp] theorem State.setDt_mem (s : State) (b : Byte) : (s.setDt b).mem = s.mem := rfl
@[simp] theorem State.setDt_prog (s : State) (b : Byte) : (s.setDt b).prog = s.prog := rfl
@[simp] theorem State.setDt_cfg (s : State) (b : Byte) : (s.setDt b).cfg = s.cfg := rfl
@[simp] theorem State.setDt_phase (s : State) (b : Byte) : (s.setDt b).phase = s.phase := rfl
@[simp] theorem State.setDt_agenda (s : State) (b : Byte) : (s.setDt b).agenda = s.agenda := rfl
@[simp] theorem State.setDt_calls (s : State) (b : Byte) : (s.setDt b).calls = s.calls := rfl
@[simp] theorem State.setDt_entropyIn (s : State) (b : Byte) : (s.setDt b).entropyIn = s.entropyIn := rfl
@[simp] theorem State.setDt_collisionIn (s : State) (b : Byte) : (s.setDt b).collisionIn = s.collisionIn := rfl
@[simp] theorem State.setDt_keyIn (s : State) (b : Byte) : (s.setDt b).keyIn = s.keyIn := rfl
@[simp] theorem State.setDt_freeIx (s : State) (b : Byte) : (s.setDt b).freeIx = s.freeIx := rfl
@[simp] theorem State.setDt_getV (s : State) (b : Byte) (r : RegIx) : (s.setDt b).getV r = s.getV r := rfl

/-! ### `State.setSt` -/

@[simp] theorem State.setSt_v (s : State) (b : Byte) : (s.setSt b).v = s.v := rfl
@[simp] theorem State.setSt_ireg (s : State) (b : Byte) : (s.setSt b).ireg = s.ireg := rfl
@[simp] theorem State.setSt_pc (s : State) (b : Byte) : (s.setSt b).pc = s.pc := rfl
@[simp] theorem State.setSt_stack (s : State) (b : Byte) : (s.setSt b).stack = s.stack := rfl
@[simp] theorem State.setSt_sp (s : State) (b : Byte) : (s.setSt b).sp = s.sp := rfl
@[simp] theorem State.setSt_dt (s : State) (b : Byte) : (s.setSt b).dt = s.dt := rfl
@[simp] theorem State.setSt_st (s : State) (b : Byte) : (s.setSt b).st = b := rfl
@[simp] theorem State.setSt_engine (s : State) (b : Byte) : (s.setSt b).engine = s.engine := rfl
@[simp] theorem State.setSt_mem (s : State) (b : Byte) : (s.setSt b).mem = s.mem := rfl
@[simp] theorem State.setSt_prog (s : State) (b : Byte) : (s.setSt b).prog = s.prog := rfl
@[simp] theorem State.setSt_cfg (s : State) (b : Byte) : (s.setSt b).cfg = s.cfg := rfl
@[simp] theorem State.setSt_phase (s : State) (b : Byte) : (s.setSt b).phase = s.phase := rfl
@[simp] theorem State.setSt_agenda (s : State) (b : Byte) : (s.setSt b).agenda = s.agenda := rfl
@[simp] theorem State.setSt_calls (s : State) (b : Byte) : (s.setSt b).calls = s.calls := rfl
@[simp] theorem State.setSt_entropyIn (s : State) (b : Byte) : (s.setSt b).entropyIn = s.entropyIn := rfl
@[simp] theorem State.setSt_collisionIn (s : State) (b : Byte) : (s.setSt b).collisionIn = s.collisionIn := rfl
@[simp] theorem State.setSt_keyIn (s : State) (b : Byte) : (s.setSt b).keyIn = s.keyIn := rfl
@[simp] theorem State.setSt_freeIx (s : State) (b : Byte) : (s.setSt b).freeIx = s.freeIx := rfl
@[simp] theorem State.setSt_getV (s : State) (b : Byte) (r : RegIx) : (s.setSt b).getV r = s.getV r := rfl

/-! ### `State.setEngine` -/

@[simp] theorem State.setEngine_v (s : State) (e : Engine) : (s.setEngine e).v = s.v := rfl
@[simp] theorem State.setEngine_ireg (s : State) (e : Engine) : (s.setEngine e).ireg = s.ireg := rfl
@[simp] theorem State.setEngine_pc (s : State) (e : Engine) : (s.setEngine e).pc = s.pc := rfl
@[simp] theorem State.setEngine_stack (s : State) (e : Engine) : (s.setEngine e).stack = s.stack := rfl
@[simp] theorem State.setEngine_sp (s : State) (e : Engine) : (s.setEngine e).sp = s.sp := rfl
@[simp] theorem State.setEngine_dt (s : State) (e : Engine) : (s.setEngine e).dt = s.dt := rfl
@[simp] theorem State.setEngine_st (s : State) (e : Engine) : (s.setEngine e).st = s.st := rfl
@[simp] theorem State.setEngine_engine (s : State) (e : Engine) : (s.setEngine e).engine = e := rfl
@[simp] theorem State.setEngine_mem (s : State) (e : Engine) : (s.setEngine e).mem = s.mem := rfl
@[simp] theorem State.setEngine_prog (s : State) (e : Engine) : (s.setEngine e).prog = s.prog := rfl
@[simp] theorem State.setEngine_cfg (s : State) (e : Engine) : (s.setEngine e).cfg = s.cfg := rfl
@[simp] theorem State.setEngine_phase (s : State) (e : Engine) : (s.setEngine e).phase = s.phase := rfl
@[simp] theorem State.setEngine_agenda (s : State) (e : Engine) : (s.setEngine e).agenda = s.agenda := rfl
@[simp] theorem State.setEngine_calls (s : State) (e : Engine) : (s.setEngine e).calls = s.calls := rfl
@[simp] theorem State.setEngine_entropyIn (s : State) (e : Engine) : (s.setEngine e).entropyIn = s.entropyIn := rfl
@[simp] theorem State.setEngine_collisionIn (s : State) (e : Engine) : (s.setEngine e).collisionIn = s.collisionIn := rfl
@[simp] theorem State.setEngine_keyIn (s : State) (e : Engine) : (s.setEngine e).keyIn = s.keyIn := rfl
@[simp] theorem State.setEngine_freeIx (s : State) (e : Engine) : (s.setEngine e).freeIx = s.freeIx := rfl
@[simp] theorem State.setEngine_getV (s : State) (e : Engine) (r : RegIx) : (s.setEngine e).getV r = s.getV r := rfl

/-! ### `State.setMem` -/

@[simp] theorem State.setMem_v (s : State) (m : Memory) : (s.setMem m).v = s.v := rfl
@[simp] theorem State.setMem_ireg (s : State) (m : Memory) : (s.setMem m).ireg = s.ireg := rfl
@[simp] theorem State.setMem_pc (s : State) (m : Memory) : (s.setMem m).pc = s.pc := rfl
@[simp] theorem State.setMem_stack (s : State) (m : Memory) : (s.setMem m).stack = s.stack := rfl
@[simp] theorem State.setMem_sp (s : State) (m : Memory) : (s.setMem m).sp = s.sp := rfl
@[simp] theorem State.setMem_dt (s : State) (m : Memory) : (s.setMem m).dt = s.dt := rfl
@[simp] theorem State.setMem_st (s : State) (m : Memory) : (s.setMem m).st = s.st := rfl
@[simp] theorem State.setMem_engine (s : State) (m : Memory) : (s.setMem m).engine = s.engine := rfl
@[simp] theorem State.setMem_mem (s : State) (m : Memory) : (s.setMem m).mem = m := rfl
@[simp] theorem State.setMem_prog (s : State) (m : Memory) : (s.setMem m).prog = s.prog := rfl
@[simp] theorem State.setMem_cfg (s : State) (m : Memory) : (s.setMem m).cfg = s.cfg := rfl
@[simp] theorem State.setMem_phase (s : State) (m : Memory) : (s.setMem m).phase = s.phase := rfl
@[simp] theorem State.setMem_agenda (s : State) (m : Memory) : (s.setMem m).agenda = s.agenda := rfl
@[simp] theorem State.setMem_calls (s : State) (m : Memory) : (s.setMem m).calls = s.calls := rfl
@[simp] theorem State.setMem_entropyIn (s : State) (m : Memory) : (s.setMem m).entropyIn = s.entropyIn := rfl
@[simp] theorem State.setMem_collisionIn (s : State) (m : Memory) : (s.setMem m).collisionIn = s.collisionIn := rfl
@[simp] theorem State.setMem_keyIn (s : State) (m : Memory) : (s.setMem m).keyIn = s.keyIn := rfl
@[simp] theorem State.setMem_freeIx (s : State) (m : Memory) : (s.setMem m).freeIx = s.freeIx := rfl
@[simp] theorem State.setMem_getV (s : State) (m : Memory) (r : RegIx) : (s.setMem m).getV r = s.getV r := rfl

/-! ### `State.setAgenda` -/

@[simp] theorem State.setAgenda_v (s : State) (l : List Transaction) : (s.setAgenda l).v = s.v := rfl
@[simp] theorem State.setAgenda_ireg (s : State) (l : List Transaction) : (s.setAgenda l).ireg = s.ireg := rfl
@[simp] theorem State.setAgenda_pc (s : State) (l : List Transaction) : (s.setAgenda l).pc = s.pc := rfl
@[simp] theorem State.setAgenda_stack (s : State) (l : List Transaction) : (s.setAgenda l).stack = s.stack := rfl
@[simp] theorem State.setAgenda_sp (s : State) (l : List Transaction) : (s.setAgenda l).sp = s.sp := rfl
@[simp] theorem State.setAgenda_dt (s : State) (l : List Transaction) : (s.setAgenda l).dt = s.dt := rfl
@[simp] theorem State.setAgenda_st (s : State) (l : List Transaction) : (s.setAgenda l).st = s.st := rfl
@[simp] theorem State.setAgenda_engine (s : State) (l : List Transaction) : (s.setAgenda l).engine = s.engine := rfl
@[simp] theorem State.setAgenda_mem (s : State) (l : List Transaction) : (s.setAgenda l).mem = s.mem := rfl
@[simp] theorem State.setAgenda_prog (s : State) (l : List Transaction) : (s.setAgenda l).prog = s.prog := rfl
@[simp] theorem State.setAgenda_cfg (s : State) (l : List Transaction) : (s.setAgenda l).cfg = s.cfg := rfl
@[simp] theorem State.setAgenda_phase (s : State) (l : List Transaction) : (s.setAgenda l).phase = s.phase := rfl
@[simp] theorem State.setAgenda_agenda (s : State) (l : List Transaction) : (s.setAgenda l).agenda = l := rfl
@[simp] theorem State.setAgenda_calls (s : State) (l : List Transaction) : (s.setAgenda l).calls = s.calls := rfl
@[simp] theorem State.setAgenda_entropyIn (s : State) (l : List Transaction) : (s.setAgenda l).entropyIn = s.entropyIn := rfl
@[simp] theorem State.setAgenda_collisionIn (s : State) (l : List Transaction) : (s.setAgenda l).collisionIn = s.collisionIn := rfl
@[simp] theorem State.setAgenda_keyIn (s : State) (l : List Transaction) : (s.setAgenda l).keyIn = s.keyIn := rfl
@[simp] theorem State.setAgenda_freeIx (s : State) (l : List Transaction) : (s.setAgenda l).freeIx = s.freeIx := rfl
@[simp] theorem State.setAgenda_getV (s : State) (l : List Transaction) (r : RegIx) : (s.setAgenda l).getV r = s.getV r := rfl

/-! ### `State.advance` -/

@[simp] theorem State.advance_v (s : State) : (s.advance).v = s.v := rfl
@[simp] theorem State.advance_ireg (s : State) : (s.advance).ireg = s.ireg := rfl
@[simp] theorem State.advance_pc (s : State) : (s.advance).pc = s.pc + 2 := rfl
@[simp] theorem State.advance_stack (s : State) : (s.advance).stack = s.stack := rfl
@[simp] theorem State.advance_sp (s : State) : (s.advance).sp = s.sp := rfl
@[simp] theorem State.advance_dt (s : State) : (s.advance).dt = s.dt := rfl
@[simp] theorem State.advance_st (s : State) : (s.advance).st = s.st := rfl
@[simp] theorem State.advance_engine (s : State) : (s.advance).engine = s.engine := rfl
@[simp] theorem State.advance_mem (s : State) : (s.advance).mem = s.mem := rfl
@[simp] theorem State.advance_prog (s : State) : (s.advance).prog = s.prog := rfl
@[simp] theorem State.advance_cfg (s : State) : (s.advance).cfg = s.cfg := rfl
@[simp] theorem State.advance_phase (s : State) : (s.advance).phase = s.phase := rfl
@[simp] theorem State.advance_agenda (s : State) : (s.advance).agenda = s.agenda := rfl
@[simp] theorem State.advance_calls (s : State) : (s.advance).calls = s.calls := rfl
@[simp] theorem State.advance_entropyIn (s : State) : (s.advance).entropyIn = s.entropyIn := rfl
@[simp] theorem State.advance_collisionIn (s : State) : (s.advance).collisionIn = s.collisionIn := rfl
@[simp] theorem State.advance_keyIn (s : State) : (s.advance).keyIn = s.keyIn := rfl
@[simp] theorem State.advance_freeIx (s : State) : (s.advance).freeIx = s.freeIx := rfl
@[simp] theorem State.advance_getV (s : State) (r : RegIx) : (s.advance).getV r = s.getV r := rfl

/-! ### `State.skipIf` -/

@[simp] theorem State.skipIf_v (s : State) (c : Bool) : (s.skipIf c).v = s.v := rfl
@[simp] theorem State.skipIf_ireg (s : State) (c : Bool) : (s.skipIf c).ireg = s.ireg := rfl
@[simp] theorem State.skipIf_pc (s : State) (c : Bool) : (s.skipIf c).pc = if c then s.pc + 4 else s.pc + 2 := rfl
@[simp] theorem State.skipIf_stack (s : State) (c : Bool) : (s.skipIf c).stack = s.stack := rfl
@[simp] theorem State.skipIf_sp (s : State) (c : Bool) : (s.skipIf c).sp = s.sp := rfl
@[simp] theorem State.skipIf_dt (s : State) (c : Bool) : (s.skipIf c).dt = s.dt := rfl
@[simp] theorem State.skipIf_st (s : State) (c : Bool) : (s.skipIf c).st = s.st := rfl
@[simp] theorem State.skipIf_engine (s : State) (c : Bool) : (s.skipIf c).engine = s.engine := rfl
@[simp] theorem State.skipIf_mem (s : State) (c : Bool) : (s.skipIf c).mem = s.mem := rfl
@[simp] theorem State.skipIf_prog (s : State) (c : Bool) : (s.skipIf c).prog = s.prog := rfl
@[simp] theorem State.skipIf_cfg (s : State) (c : Bool) : (s.skipIf c).cfg = s.cfg := rfl
@[simp] theorem State.skipIf_phase (s : State) (c : Bool) : (s.skipIf c).phase = s.phase := rfl
@[simp] theorem State.skipIf_agenda (s : State) (c : Bool) : (s.skipIf c).agenda = s.agenda := rfl
@[simp] theorem State.skipIf_calls (s : State) (c : Bool) : (s.skipIf c).calls = s.calls := rfl
@[simp] theorem State.skipIf_entropyIn (s : State) (c : Bool) : (s.skipIf c).entropyIn = s.entropyIn := rfl
@[simp] theorem State.skipIf_collisionIn (s : State) (c : Bool) : (s.skipIf c).collisionIn = s.collisionIn := rfl
@[simp] theorem State.skipIf_keyIn (s : State) (c : Bool) : (s.skipIf c).keyIn = s.keyIn := rfl
@[simp] theorem State.skipIf_freeIx (s : State) (c : Bool) : (s.skipIf c).freeIx = s.freeIx := rfl
@[simp] theorem State.skipIf_getV (s : State) (c : Bool) (r : RegIx) : (s.skipIf c).getV r = s.getV r := rfl

/-! ### `State.raise` -/

@[simp] theorem State.raise_v (s : State) (e : ExecFault) : (s.raise e).v = s.v := rfl
@[simp] theorem State.raise_ireg (s : State) (e : ExecFault) : (s.raise e).ireg = s.ireg := rfl
@[simp] theorem State.raise_pc (s : State) (e : ExecFault) : (s.raise e).pc = s.pc := rfl
@[simp] theorem State.raise_stack (s : State) (e : ExecFault) : (s.raise e).stack = s.stack := rfl
@[simp] theorem State.raise_sp (s : State) (e : ExecFault) : (s.raise e).sp = s.sp := rfl
@[simp] theorem State.raise_dt (s : State) (e : ExecFault) : (s.raise e).dt = s.dt := rfl
@[simp] theorem State.raise_st (s : State) (e : ExecFault) : (s.raise e).st = s.st := rfl
@[simp] theorem State.raise_engine (s : State) (e : ExecFault) : (s.raise e).engine = .halted e := rfl
@[simp] theorem State.raise_mem (s : State) (e : ExecFault) : (s.raise e).mem = s.mem := rfl
@[simp] theorem State.raise_prog (s : State) (e : ExecFault) : (s.raise e).prog = s.prog := rfl
@[simp] theorem State.raise_cfg (s : State) (e : ExecFault) : (s.raise e).cfg = s.cfg := rfl
@[simp] theorem State.raise_phase (s : State) (e : ExecFault) : (s.raise e).phase = s.phase := rfl
@[simp] theorem State.raise_agenda (s : State) (e : ExecFault) : (s.raise e).agenda = s.agenda := rfl
@[simp] theorem State.raise_calls (s : State) (e : ExecFault) : (s.raise e).calls = s.calls := rfl
@[simp] theorem State.raise_entropyIn (s : State) (e : ExecFault) : (s.raise e).entropyIn = s.entropyIn := rfl
@[simp] theorem State.raise_collisionIn (s : State) (e : ExecFault) : (s.raise e).collisionIn = s.collisionIn := rfl
@[simp] theorem State.raise_keyIn (s : State) (e : ExecFault) : (s.raise e).keyIn = s.keyIn := rfl
@[simp] theorem State.raise_freeIx (s : State) (e : ExecFault) : (s.raise e).freeIx = s.freeIx := rfl
@[simp] theorem State.raise_getV (s : State) (e : ExecFault) (r : RegIx) : (s.raise e).getV r = s.getV r := rfl

/-! ### `State.logCall` -/

@[simp] theorem State.logCall_v (s : State) (c : HostCall) : (s.logCall c).v = s.v := rfl
@[simp] theorem State.logCall_ireg (s : State) (c : HostCall) : (s.logCall c).ireg = s.ireg := rfl
@[simp] theorem State.logCall_pc (s : State) (c : HostCall) : (s.logCall c).pc = s.pc := rfl
@[simp] theorem State.logCall_stack (s : State) (c : HostCall) : (s.logCall c).stack = s.stack := rfl
@[simp] theorem State.logCall_sp (s : State) (c : HostCall) : (s.logCall c).sp = s.sp := rfl
@[simp] theorem State.logCall_dt (s : State) (c : HostCall) : (s.logCall c).dt = s.dt := rfl
@[simp] theorem State.logCall_st (s : State) (c : HostCall) : (s.logCall c).st = s.st := rfl
@[simp] theorem State.logCall_engine (s : State) (c : HostCall) : (s.logCall c).engine = s.engine := rfl
@[simp] theorem State.logCall_mem (s : State) (c : HostCall) : (s.logCall c).mem = s.mem := rfl
@[simp] theorem State.logCall_prog (s : State) (c : HostCall) : (s.logCall c).prog = s.prog := rfl
@[simp] theorem State.logCall_cfg (s : State) (c : HostCall) : (s.logCall c).cfg = s.cfg := rfl
@[simp] theorem State.logCall_phase (s : State) (c : HostCall) : (s.logCall c).phase = s.phase := rfl
@[simp] theorem State.logCall_agenda (s : State) (c : HostCall) : (s.logCall c).agenda = s.agenda := rfl
@[simp] theorem State.logCall_calls (s : State) (c : HostCall) : (s.logCall c).calls = s.calls ++ [c] := rfl
@[simp] theorem State.logCall_entropyIn (s : State) (c : HostCall) : (s.logCall c).entropyIn = s.entropyIn := rfl
@[simp] theorem State.logCall_collisionIn (s : State) (c : HostCall) : (s.logCall c).collisionIn = s.collisionIn := rfl
@[simp] theorem State.logCall_keyIn (s : State) (c : HostCall) : (s.logCall c).keyIn = s.keyIn := rfl
@[simp] theorem State.logCall_freeIx (s : State) (c : HostCall) : (s.logCall c).freeIx = s.freeIx := rfl
@[simp] theorem State.logCall_getV (s : State) (c : HostCall) (r : RegIx) : (s.logCall c).getV r = s.getV r := rfl

/-! ### Registers -/

/-- A register reads what was last written to it; a write leaves every other register alone. -/
theorem State.getV_setV (s : State) (i r : RegIx) (b : Byte) :
    (s.setV i b).getV r = if r = i then b else s.getV r := by
  unfold State.setV State.getV
  by_cases h : r = i
  · subst h; simp
  · have h' : i.val ≠ r.val := fun e => h (Fin.ext e.symm)
    simp [h, h']

@[simp] theorem State.getV_setV_same (s : State) (i : RegIx) (b : Byte) : (s.setV i b).getV i = b := by
  simp [State.getV_setV]

theorem State.getV_setV_ne (s : State) {i r : RegIx} (b : Byte) (h : r ≠ i) :
    (s.setV i b).getV r = s.getV r := by
  simp [State.getV_setV, h]

/-- Result, then flag: the flag stands in `VF` (R90). -/
theorem State.getV_setResultThenFlag (s : State) (x r : RegIx) (res f : Byte) :
    (s.setResultThenFlag x res f).getV r = if r = flagIx then f else if r = x then res else s.getV r := by
  simp [State.setResultThenFlag, State.getV_setV]

/-- Flag, then result: the result stands in `V[x]`, also when `x = 15` (R90). -/
theorem State.getV_setFlagThenResult (s : State) (x r : RegIx) (f res : Byte) :
    (s.setFlagThenResult x f res).getV r = if r = x then res else if r = flagIx then f else s.getV r := by
  simp [State.setFlagThenResult, State.getV_setV]

/-- Every register is 0 after `Reset` (R27). -/
@[simp] theorem State.resetCore_getV (s : State) (r : RegIx) : s.resetCore.getV r = 0 := by
  simp [State.resetCore, State.getV]

@[simp] theorem State.setResultThenFlag_ireg (s : State) (x : RegIx) (res f : Byte) : (s.setResultThenFlag x res f).ireg = s.ireg := rfl
@[simp] theorem State.setResultThenFlag_pc (s : State) (x : RegIx) (res f : Byte) : (s.setResultThenFlag x res f).pc = s.pc := rfl
@[simp] theorem State.setResultThenFlag_stack (s : State) (x : RegIx) (res f : Byte) : (s.setResultThenFlag x res f).stack = s.stack := rfl
@[simp] theorem State.setResultThenFlag_sp (s : State) (x : RegIx) (res f : Byte) : (s.setResultThenFlag x res f).sp = s.sp := rfl
@[simp] theorem State.setResultThenFlag_dt (s : State) (x : RegIx) (res f : Byte) : (s.setResultThenFlag x res f).dt = s.dt := rfl
@[simp] theorem State.setResultThenFlag_st (s : State) (x : RegIx) (res f : Byte) : (s.setResultThenFlag x res f).st = s.st := rfl
@[simp] theorem State.setResultThenFlag_engine (s : State) (x : RegIx) (res f : Byte) : (s.setResultThenFlag x res f).engine = s.engine := rfl
@[simp] theorem State.setResultThenFlag_mem (s : State) (x : RegIx) (res f : Byte) : (s.setResultThenFlag x res f).mem = s.mem := rfl
@[simp] theorem State.setResultThenFlag_prog (s : State) (x : RegIx) (res f : Byte) : (s.setResultThenFlag x res f).prog = s.prog := rfl
@[simp] theorem State.setResultThenFlag_cfg (s : State) (x : RegIx) (res f : Byte) : (s.setResultThenFlag x res f).cfg = s.cfg := rfl
@[simp] theorem State.setResultThenFlag_phase (s : State) (x : RegIx) (res f : Byte) : (s.setResultThenFlag x res f).phase = s.phase := rfl
@[simp] theorem State.setResultThenFlag_agenda (s : State) (x : RegIx) (res f : Byte) : (s.setResultThenFlag x res f).agenda = s.agenda := rfl
@[simp] theorem State.setResultThenFlag_calls (s : State) (x : RegIx) (res f : Byte) : (s.setResultThenFlag x res f).calls = s.calls := rfl
@[simp] theorem State.setResultThenFlag_entropyIn (s : State) (x : RegIx) (res f : Byte) : (s.setResultThenFlag x res f).entropyIn = s.entropyIn := rfl
@[simp] theorem State.setResultThenFlag_collisionIn (s : State) (x : RegIx) (res f : Byte) : (s.setResultThenFlag x res f).collisionIn = s.collisionIn := rfl
@[simp] theorem State.setResultThenFlag_keyIn (s : State) (x : RegIx) (res f : Byte) : (s.setResultThenFlag x res f).keyIn = s.keyIn := rfl
@[simp] theorem State.setResultThenFlag_freeIx (s : State) (x : RegIx) (res f : Byte) : (s.setResultThenFlag x res f).freeIx = s.freeIx := rfl
@[simp] theorem State.setFlagThenResult_ireg (s : State) (x : RegIx) (f res : Byte) : (s.setFlagThenResult x f res).ireg = s.ireg := rfl
@[simp] theorem State.setFlagThenResult_pc (s : State) (x : RegIx) (f res : Byte) : (s.setFlagThenResult x f res).pc = s.pc := rfl
@[simp] theorem State.setFlagThenResult_stack (s : State) (x : RegIx) (f res : Byte) : (s.setFlagThenResult x f res).stack = s.stack := rfl
@[simp] theorem State.setFlagThenResult_sp (s : State) (x : RegIx) (f res : Byte) : (s.setFlagThenResult x f res).sp = s.sp := rfl
@[simp] theorem State.setFlagThenResult_dt (s : State) (x : RegIx) (f res : Byte) : (s.setFlagThenResult x f res).dt = s.dt := rfl
@[simp] theorem State.setFlagThenResult_st (s : State) (x : RegIx) (f res : Byte) : (s.setFlagThenResult x f res).st = s.st := rfl
@[simp] theorem State.setFlagThenResult_engine (s : State) (x : RegIx) (f res : Byte) : (s.setFlagThenResult x f res).engine = s.engine := rfl
@[simp] theorem State.setFlagThenResult_mem (s : State) (x : RegIx) (f res : Byte) : (s.setFlagThenResult x f res).mem = s.mem := rfl
@[simp] theorem State.setFlagThenResult_prog (s : State) (x : RegIx) (f res : Byte) : (s.setFlagThenResult x f res).prog = s.prog := rfl
@[simp] theorem State.setFlagThenResult_cfg (s : State) (x : RegIx) (f res : Byte) : (s.setFlagThenResult x f res).cfg = s.cfg := rfl
@[simp] theorem State.setFlagThenResult_phase (s : State) (x : RegIx) (f res : Byte) : (s.setFlagThenResult x f res).phase = s.phase := rfl
@[simp] theorem State.setFlagThenResult_agenda (s : State) (x : RegIx) (f res : Byte) : (s.setFlagThenResult x f res).agenda = s.agenda := rfl
@[simp] theorem State.setFlagThenResult_calls (s : State) (x : RegIx) (f res : Byte) : (s.setFlagThenResult x f res).calls = s.calls := rfl
@[simp] theorem State.setFlagThenResult_entropyIn (s : State) (x : RegIx) (f res : Byte) : (s.setFlagThenResult x f res).entropyIn = s.entropyIn := rfl
@[simp] theorem State.setFlagThenResult_collisionIn (s : State) (x : RegIx) (f res : Byte) : (s.setFlagThenResult x f res).collisionIn = s.collisionIn := rfl
@[simp] theorem State.setFlagThenResult_keyIn (s : State) (x : RegIx) (f res : Byte) : (s.setFlagThenResult x f res).keyIn = s.keyIn := rfl
@[simp] theorem State.setFlagThenResult_freeIx (s : State) (x : RegIx) (f res : Byte) : (s.setFlagThenResult x f res).freeIx = s.freeIx := rfl

/-! ### `Reset` (R160, R161) -/

@[simp] theorem State.resetCore_v (s : State) : s.resetCore.v = Vector.replicate 16 0 := rfl
@[simp] theorem State.resetCore_ireg (s : State) : s.resetCore.ireg = 0 := rfl
@[simp] theorem State.resetCore_pc (s : State) : s.resetCore.pc = 0x200 := rfl
@[simp] theorem State.resetCore_stack (s : State) : s.resetCore.stack = s.stack := rfl
@[simp] theorem State.resetCore_sp (s : State) : s.resetCore.sp = 0 := rfl
@[simp] theorem State.resetCore_dt (s : State) : s.resetCore.dt = 0 := rfl
@[simp] theorem State.resetCore_st (s : State) : s.resetCore.st = 0 := rfl
@[simp] theorem State.resetCore_engine (s : State) : s.resetCore.engine = .ready := rfl
@[simp] theorem State.resetCore_mem (s : State) : s.resetCore.mem = s.mem := rfl
@[simp] theorem State.resetCore_prog (s : State) : s.resetCore.prog = s.prog := rfl
@[simp] theorem State.resetCore_cfg (s : State) : s.resetCore.cfg = s.cfg := rfl
@[simp] theorem State.resetCore_phase (s : State) : s.resetCore.phase = .running := rfl
@[simp] theorem State.resetCore_agenda (s : State) : s.resetCore.agenda = s.agenda := rfl
@[simp] theorem State.resetCore_calls (s : State) : s.resetCore.calls = s.calls := rfl
@[simp] theorem State.resetCore_entropyIn (s : State) : s.resetCore.entropyIn = s.entropyIn := rfl
@[simp] theorem State.resetCore_collisionIn (s : State) : s.resetCore.collisionIn = s.collisionIn := rfl
@[simp] theorem State.resetCore_keyIn (s : State) : s.resetCore.keyIn = s.keyIn := rfl
@[simp] theorem State.resetCore_freeIx (s : State) : s.resetCore.freeIx = s.freeIx := rfl

end Sys2Proof.Machine
end

