-- ==== Sys2Proof/Laws/Memory.lean ====
section
/-! SUPPORT. Memory: every operation keeps the canonical form; a read after a write; every content of `Mem` is some
memory. -/

namespace Sys2Proof.Machine

open Sys2Proof.Config

/-! ### The canonical form -/

theorem Memory.wfFrom_cons {lo k : Nat} {b : Byte} {t : Memory} :
    Memory.wfFrom lo ((k, b) :: t) = true ↔
      lo ≤ k ∧ k < memSize ∧ b ≠ unlistedByte ∧ Memory.wfFrom (k + 1) t = true := by
  simp [Memory.wfFrom, and_assoc]

theorem Memory.wfFrom_mono {lo lo' : Nat} (h : lo' ≤ lo) {m : Memory} (hm : Memory.wfFrom lo m = true) :
    Memory.wfFrom lo' m = true := by
  cases m with
  | nil => rfl
  | cons c t =>
    obtain ⟨k, b⟩ := c
    rw [Memory.wfFrom_cons] at hm ⊢
    exact ⟨Nat.le_trans h hm.1, hm.2⟩

/-- Below the first cell nothing is listed. -/
theorem Memory.readAt_of_lt {lo a : Nat} {m : Memory} (hm : Memory.wfFrom lo m = true) (h : a < lo) :
    m.readAt a = unlistedByte := by
  cases m with
  | nil => rfl
  | cons c t =>
    obtain ⟨k, b⟩ := c
    rw [Memory.wfFrom_cons] at hm
    have h1 : a ≠ k := by omega
    have h2 : a < k := by omega
    simp [Memory.readAt, h1, h2]

theorem Memory.wfFrom_writeAt {lo a : Nat} {b : Byte} {m : Memory} (hm : Memory.wfFrom lo m = true)
    (hlo : lo ≤ a) (ha : a < memSize) : Memory.wfFrom lo (m.writeAt a b) = true := by
  induction m generalizing lo with
  | nil =>
    unfold Memory.writeAt
    split
    · rfl
    · rename_i hb; exact Memory.wfFrom_cons.2 ⟨hlo, ha, hb, rfl⟩
  | cons c t ih =>
    obtain ⟨k, c⟩ := c
    have h := Memory.wfFrom_cons.1 hm
    unfold Memory.writeAt
    split
    · rename_i hlt
      split
      · exact hm
      · rename_i hb
        exact Memory.wfFrom_cons.2 ⟨hlo, ha, hb, Memory.wfFrom_cons.2 ⟨by omega, h.2⟩⟩
    · split
      · rename_i hne heq
        split
        · exact Memory.wfFrom_mono (by omega) h.2.2.2
        · rename_i hb
          subst heq
          exact Memory.wfFrom_cons.2 ⟨hlo, ha, hb, h.2.2.2⟩
      · exact Memory.wfFrom_cons.2 ⟨h.1, h.2.1, h.2.2.1, ih h.2.2.2 (by omega)⟩

/-- `MemWrite` keeps the canonical form. -/
theorem Memory.wf_write {m : Memory} (hm : m.wf = true) (a : Addr) (b : Byte) : (m.write a b).wf = true :=
  Memory.wfFrom_writeAt hm (Nat.zero_le _) a.isLt

/-- A run of `MemWrite`s keeps the canonical form. -/
theorem Memory.wf_writeBytes {m : Memory} (hm : m.wf = true) (a : Addr) (bs : List Byte) :
    (m.writeBytes a bs).wf = true := by
  induction bs generalizing m a with
  | nil => exact hm
  | cons b bs ih => exact ih (Memory.wf_write hm a b) (a + 1)

/-- The memory of the reset state has the canonical form. -/
theorem Memory.wf_reset : State.reset.mem.wf = true := rfl

/-! ### Reads after writes (R41, R42) -/

theorem Memory.readAt_writeAt {lo : Nat} {m : Memory} (hm : Memory.wfFrom lo m = true) (a c : Nat) (b : Byte) :
    (m.writeAt a b).readAt c = if c = a then b else m.readAt c := by
  induction m generalizing lo with
  | nil =>
    unfold Memory.writeAt
    by_cases hb : b = unlistedByte
    · by_cases hc : c = a <;> simp [hb, hc, Memory.readAt]
    · by_cases hc : c = a <;> simp [hb, hc, Memory.readAt]
  | cons d t ih =>
    obtain ⟨k, d⟩ := d
    have h := Memory.wfFrom_cons.1 hm
    unfold Memory.writeAt
    split
    · rename_i hlt
      split
      · rename_i hb
        by_cases hc : c = a
        · subst hc
          have h1 : c ≠ k := by omega
          simp [Memory.readAt, hlt, h1, hb]
        · simp [hc]
      · by_cases hc : c = a
        · subst hc; simp [Memory.readAt]
        · by_cases hca : c < a
          · have h1 : c ≠ k := by omega
            have h2 : c < k := by omega
            simp [Memory.readAt, hc, hca, h1, h2]
          · simp [Memory.readAt, hc, hca]
    · rename_i hlt
      split
      · rename_i heq
        subst heq
        split
        · rename_i hb
          by_cases hc : c = a
          · subst hc; simp [hb, Memory.readAt_of_lt h.2.2.2 (Nat.lt_succ_self _)]
          · by_cases hca : c < a
            · rw [Memory.readAt_of_lt h.2.2.2 (by omega)]
              simp [Memory.readAt, hc, hca]
            · simp [Memory.readAt, hc, hca]
        · by_cases hc : c = a
          · subst hc; simp [Memory.readAt]
          · simp [Memory.readAt, hc]
      · rename_i hne
        have ih' := ih h.2.2.2
        by_cases hck : c = k
        · subst hck
          have h1 : c ≠ a := fun e => hne e.symm
          simp [Memory.readAt, h1]
        · by_cases hck' : c < k
          · have h1 : c ≠ a := by omega
            simp [Memory.readAt, hck, hck', h1]
          · simp [Memory.readAt, hck, hck', ih']

/-- What a byte reads as after a `MemWrite`: the written byte at the address, the old byte everywhere else. -/
theorem Memory.read_write {m : Memory} (hm : m.wf = true) (a c : Addr) (b : Byte) :
    (m.write a b).read c = if c = a then b else m.read c := by
  unfold Memory.read Memory.write
  rw [Memory.readAt_writeAt hm]
  by_cases h : c = a
  · subst h; simp
  · have h' : c.toNat ≠ a.toNat := fun e => h (BitVec.eq_of_toNat_eq e)
    simp [h, h']

/-- The offset of an address from a base, modulo 4096: byte `k` of a run from `a` has offset `k` (R34). -/
def offsetFrom (a c : Addr) : Nat := (c - a).toNat

theorem toNat_one_addr : (1 : Addr).toNat = 1 := rfl

theorem offsetFrom_self (a : Addr) : offsetFrom a a = 0 := by simp [offsetFrom]

theorem offsetFrom_succ {a c : Addr} (h : c ≠ a) : offsetFrom (a + 1) c + 1 = offsetFrom a c := by
  have h' : c.toNat ≠ a.toNat := fun e => h (BitVec.eq_of_toNat_eq e)
  simp only [offsetFrom, BitVec.toNat_sub, BitVec.toNat_add, toNat_one_addr]
  have := a.isLt
  have := c.isLt
  omega

/-- What a byte reads as after a run of at most 4096 writes: the byte of the run at the address's offset, the old byte
outside the run. -/
theorem Memory.read_writeBytes {m : Memory} (hm : m.wf = true) (a c : Addr) (bs : List Byte)
    (hlen : bs.length ≤ memSize) :
    (m.writeBytes a bs).read c = (bs[offsetFrom a c]?).getD (m.read c) := by
  induction bs generalizing m a with
  | nil => simp [Memory.writeBytes]
  | cons b bs ih =>
    have hlen' : bs.length + 1 ≤ memSize := hlen
    unfold Memory.writeBytes
    rw [ih (Memory.wf_write hm a b) (a + 1) (by omega), Memory.read_write hm]
    by_cases h : c = a
    · subst h
      have h1 : bs.length ≤ offsetFrom (c + 1) c := by
        have : offsetFrom (c + 1) c = 4095 := by
          simp only [offsetFrom, BitVec.toNat_sub, BitVec.toNat_add, toNat_one_addr]
          have := c.isLt
          omega
        simp only [memSize] at hlen'
        omega
      rw [List.getElem?_eq_none h1, offsetFrom_self]
      simp
    · simp [h, ← offsetFrom_succ h]

/-- A byte outside a run of writes reads as before. -/
theorem Memory.read_writeBytes_outside {m : Memory} (hm : m.wf = true) {a c : Addr} {bs : List Byte}
    (hlen : bs.length ≤ memSize) (h : bs.length ≤ offsetFrom a c) :
    (m.writeBytes a bs).read c = m.read c := by
  rw [Memory.read_writeBytes hm a c bs hlen, List.getElem?_eq_none h]
  rfl

theorem Memory.length_readBytes (m : Memory) (a : Addr) (n : Nat) : (m.readBytes a n).length = n := by
  induction n generalizing a with
  | zero => rfl
  | succ n ih => simp [Memory.readBytes, ih]

/-- Byte `k` of a run of reads is the byte at `(a + k) mod 4096`. -/
theorem Memory.getElem?_readBytes (m : Memory) (a : Addr) {n k : Nat} (h : k < n) :
    (m.readBytes a n)[k]? = some (m.read (a + BitVec.ofNat 12 k)) := by
  induction n generalizing a k with
  | zero => omega
  | succ n ih =>
    cases k with
    | zero => simp [Memory.readBytes]
    | succ k =>
      have e : a + 1 + BitVec.ofNat 12 k = a + BitVec.ofNat 12 (k + 1) := by
        apply BitVec.eq_of_toNat_eq
        simp only [BitVec.toNat_add, BitVec.toNat_ofNat, toNat_one_addr]
        omega
      rw [← e, ← ih (a + 1) (by omega : k < n)]
      rfl

/-! ### Every content of `Mem` is a memory (R39: `Mem0` may be any bytes) -/

/-- The cells of a content from address `lo` on, `n` addresses. -/
def Memory.cellsOf (f : Nat → Byte) (lo : Nat) : Nat → Memory
  | 0 => []
  | n + 1 => if f lo = unlistedByte then Memory.cellsOf f (lo + 1) n else (lo, f lo) :: Memory.cellsOf f (lo + 1) n

theorem Memory.wfFrom_cellsOf (f : Nat → Byte) (lo n : Nat) (h : lo + n ≤ memSize) :
    Memory.wfFrom lo (Memory.cellsOf f lo n) = true := by
  induction n generalizing lo with
  | zero => rfl
  | succ n ih =>
    unfold Memory.cellsOf
    split
    · exact Memory.wfFrom_mono (by omega) (ih (lo + 1) (by omega))
    · rename_i hb
      exact Memory.wfFrom_cons.2 ⟨Nat.le_refl _, by omega, hb, ih (lo + 1) (by omega)⟩

theorem Memory.readAt_cellsOf (f : Nat → Byte) (lo n a : Nat) (h : lo + n ≤ memSize) (h1 : lo ≤ a)
    (h2 : a < lo + n) : (Memory.cellsOf f lo n).readAt a = f a := by
  induction n generalizing lo with
  | zero => omega
  | succ n ih =>
    unfold Memory.cellsOf
    by_cases ha : a = lo
    · subst ha
      split
      · rename_i hb
        rw [Memory.readAt_of_lt (Memory.wfFrom_cellsOf f (a + 1) n (by omega)) (by omega), hb]
      · simp [Memory.readAt]
    · split
      · exact ih (lo + 1) (by omega) (by omega) (by omega)
      · have h3 : ¬ a < lo := by omega
        simp [Memory.readAt, ha, h3]
        exact ih (lo + 1) (by omega) (by omega) (by omega)

/-- Whatever bytes `Mem0` holds, some memory in canonical form reads as them (R39, D18). -/
theorem Memory.exists_read_eq (f : Addr → Byte) : ∃ m : Memory, m.wf = true ∧ ∀ a : Addr, m.read a = f a := by
  refine ⟨Memory.cellsOf (fun k => f (BitVec.ofNat 12 k)) 0 memSize,
    Memory.wfFrom_cellsOf _ 0 memSize (by simp), fun a => ?_⟩
  have h := Memory.readAt_cellsOf (fun k => f (BitVec.ofNat 12 k)) 0 memSize a.toNat (by simp) (Nat.zero_le _)
    (by have := a.isLt; simp only [memSize]; omega)
  simpa [Memory.read] using h

end Sys2Proof.Machine
end

