-- ==== Sys2Proof/Laws/Ops.lean ====
section
/-! SUPPORT. For each shared operation, one lemma that says everything it can do. -/

namespace Sys2Proof.Machine

open Sys2Proof.Config

/-! ### The stack (R19, R20) -/

/-- `push` answers exactly when `SP < 16`; then it writes `S[SP]` and counts `SP` up, and nothing else. -/
theorem State.push_eq_some_iff {s s' : State} {a : Addr} :
    s.push a = some s' ↔
      ∃ h : s.sp.val < 16,
        s' = { s with stack := s.stack.set s.sp.val a, sp := ⟨s.sp.val + 1, by omega⟩ } := by
  unfold State.push
  split
  · rename_i h
    exact ⟨fun e => ⟨h, (Option.some.inj e).symm⟩, fun ⟨_, e⟩ => by rw [e]⟩
  · rename_i h
    exact ⟨fun e => by simp at e, fun ⟨h', _⟩ => absurd h' h⟩

theorem State.push_eq_none_iff {s : State} {a : Addr} : s.push a = none ↔ s.sp.val = 16 := by
  unfold State.push
  have := s.sp.isLt
  split
  · simp; omega
  · simp; omega

/-- `pop` answers exactly when `SP > 0`; then it counts `SP` down and gives `S[SP]`, and nothing else changes. -/
theorem State.pop_eq_some_iff {s s' : State} {t : Addr} :
    s.pop = some (t, s') ↔
      ∃ h : 0 < s.sp.val,
        t = s.stack[s.sp.val - 1]'(by omega) ∧ s' = { s with sp := ⟨s.sp.val - 1, by omega⟩ } := by
  unfold State.pop
  split
  · rename_i h
    constructor
    · intro e
      have := Option.some.inj e
      exact ⟨h, (congrArg Prod.fst this).symm, (congrArg Prod.snd this).symm⟩
    · rintro ⟨_, rfl, rfl⟩; rfl
  · rename_i h
    exact ⟨fun e => by simp at e, fun ⟨h', _⟩ => absurd h' h⟩

theorem State.pop_eq_none_iff {s : State} : s.pop = none ↔ s.sp.val = 0 := by
  unfold State.pop
  split
  · simp; omega
  · simp; omega

/-! ### Fetch (R40) -/

/-- A fetch gives a word exactly at an even address of the program region, and then it is that entry of `Prog`. -/
theorem fetch_eq_word_iff {prog : List Word} {a : Addr} {w : Word} :
    fetch prog a = .word w ↔
      a.toNat % 2 = 0 ∧ 0x200 ≤ a.toNat ∧ prog[(a.toNat - 0x200) / 2]? = some w := by
  unfold fetch
  split
  · simp; omega
  · split
    · rename_i h; simp only [memStart] at h; simp; omega
    · rename_i h
      simp only [memStart, insnBytes] at h ⊢
      split
      · rename_i hw
        simp only [hw, Fetched.word.injEq, Option.some.injEq]
        exact ⟨fun e => ⟨by omega, by omega, e⟩, fun e => e.2.2⟩
      · rename_i hw; simp [hw]

/-- `Misaligned` exactly at an odd address. -/
theorem fetch_eq_misaligned_iff {prog : List Word} {a : Addr} :
    fetch prog a = .fault .misaligned ↔ a.toNat % 2 = 1 := by
  unfold fetch
  split
  · simp [*]
  · split
    · simp [*]
    · split <;> simp [*]

/-- `OutOfProgram` exactly at an even address outside `[0x200, 0x200 + LEN)`. -/
theorem fetch_eq_outOfProgram_iff {prog : List Word} {a : Addr} :
    fetch prog a = .fault .outOfProgram ↔
      a.toNat % 2 = 0 ∧ (a.toNat < 0x200 ∨ 0x200 + 2 * prog.length ≤ a.toNat) := by
  unfold fetch
  split
  · simp; omega
  · split
    · rename_i h; simp only [memStart] at h; simp; omega
    · rename_i h
      simp only [memStart, insnBytes] at h ⊢
      split
      · rename_i hw
        have := (List.getElem?_eq_some_iff.1 hw).1
        simp; omega
      · rename_i hw
        have := List.getElem?_eq_none_iff.1 hw
        simp; omega

/-- A word placed at entry `k` is what entry `k` holds. -/
theorem getElem?_placeWord (prog : List Word) (k : Nat) (w : Word) : (placeWord prog k w)[k]? = some w := by
  induction k generalizing prog with
  | zero => cases prog <;> simp [placeWord]
  | succ k ih => cases prog <;> simp [placeWord, ih]

/-- The words of a rom: half as many as its bytes (R24). -/
theorem length_wordsOfRom (rom : List Byte) : (wordsOfRom rom).length = rom.length / 2 := by
  induction rom using wordsOfRom.induct with
  | case1 l r rest ih => simp [wordsOfRom, ih]; omega
  | case2 rom h =>
    cases rom with
    | nil => rfl
    | cons a t =>
      cases t with
      | nil => simp [wordsOfRom]
      | cons b t => exact absurd rfl (h a b t)

/-! ### Capability calls (R6, R136): one call recorded, one answer used, nothing else -/

/-- `NextByte()` makes one call and takes the host's next byte, or the next free value. -/
theorem State.nextByte_cases (s : State) :
    (∃ b rest, s.entropyIn = b :: rest ∧
      s.nextByte = (b, { s with calls := s.calls ++ [.nextByte], entropyIn := rest })) ∨
    (s.entropyIn = [] ∧
      s.nextByte = (freeByte s.freeIx, { s with calls := s.calls ++ [.nextByte], freeIx := s.freeIx + 1 })) := by
  unfold State.nextByte
  split
  · rename_i b rest h; exact .inl ⟨b, rest, h, rfl⟩
  · rename_i h; exact .inr ⟨h, rfl⟩

/-- `DrawSprite` makes one call and takes the host's next collision answer, or the next free value. -/
theorem State.drawSprite_cases (s : State) (x y : Byte) (rows : List Byte) :
    (∃ b rest, s.collisionIn = b :: rest ∧
      s.drawSprite x y rows = (b, { s with calls := s.calls ++ [.drawSprite x y rows], collisionIn := rest })) ∨
    (s.collisionIn = [] ∧
      s.drawSprite x y rows =
        (freeCollision s.freeIx, { s with calls := s.calls ++ [.drawSprite x y rows], freeIx := s.freeIx + 1 })) := by
  unfold State.drawSprite
  split
  · rename_i b rest h; exact .inl ⟨b, rest, h, rfl⟩
  · rename_i h; exact .inr ⟨h, rfl⟩

/-- `IsKeyDown` makes one call and takes the host's next key answer, or the next free value. -/
theorem State.isKeyDown_cases (s : State) (c : KeyCode) :
    (∃ b rest, s.keyIn = b :: rest ∧
      s.isKeyDown c = (b, { s with calls := s.calls ++ [.isKeyDown c], keyIn := rest })) ∨
    (s.keyIn = [] ∧
      s.isKeyDown c =
        (freeKeyDown s.freeIx, { s with calls := s.calls ++ [.isKeyDown c], freeIx := s.freeIx + 1 })) := by
  unfold State.isKeyDown
  split
  · rename_i b rest h; exact .inl ⟨b, rest, h, rfl⟩
  · rename_i h; exact .inr ⟨h, rfl⟩

/-! ### Operand forms -/

/-- A byte names a key code unless it is above 15 under `refuse` (R132, R112). -/
theorem keyCodeOf_eq_none_iff {p : Params} {b : Byte} :
    keyCodeOf p b = none ↔ 15 < b.toNat ∧ p.keyCodePolicy = .refuse := by
  unfold keyCodeOf
  split
  · simp; omega
  · split <;> simp_all

/-- The code a byte names is its low four bits: the byte itself up to 15. -/
theorem keyCodeOf_eq_some {p : Params} {b : Byte} {c : KeyCode} (h : keyCodeOf p b = some c) :
    c.val = b.toNat % 16 := by
  unfold keyCodeOf at h
  split at h
  · have := Option.some.inj h; subst this; rfl
  · split at h
    · simp at h
    · have := Option.some.inj h; subst this; rfl

/-- The code a byte names, when it is at most 15 or the policy is `mask4`. -/
theorem keyCodeOf_of {p : Params} {b : Byte} {c : KeyCode} (hc : c.val = b.toNat % 16)
    (h : b.toNat ≤ 15 ∨ p.keyCodePolicy = .mask4) : keyCodeOf p b = some c := by
  cases hk : keyCodeOf p b with
  | none =>
    rw [keyCodeOf_eq_none_iff] at hk
    rcases h with h | h
    · omega
    · simp [hk.2] at h
  | some d => rw [Fin.ext ((keyCodeOf_eq_some hk).trans hc.symm)]

/-! ### `PC` (R13 to R15) -/

/-- The address arithmetic of `PC` is addition modulo 4096. -/
theorem State.pc_add (s : State) {d : Nat} (hd : d < 4096) : s.pc + BitVec.ofNat 12 d = s.pcPlus d := by
  unfold State.pcPlus
  apply BitVec.eq_of_toNat_eq
  simp [Nat.mod_eq_of_lt hd]

theorem State.pc_add_two (s : State) : s.pc + 2 = s.pcPlus 2 := s.pc_add (by decide)

theorem State.pc_add_four (s : State) : s.pc + 4 = s.pcPlus 4 := s.pc_add (by decide)

/-- `advance` writes `PC` only. -/
theorem State.advance_eq (s : State) : s.advance = { s with pc := s.pcPlus 2 } := by
  unfold State.advance State.setPc
  rw [State.pc_add_two]

/-- A skip writes `PC` only. -/
theorem State.skipIf_eq (s : State) (c : Bool) :
    s.skipIf c = { s with pc := if c then s.pcPlus 4 else s.pcPlus 2 } := by
  unfold State.skipIf State.setPc
  rw [State.pc_add_two, State.pc_add_four]

/-- A register write, then `PC + 2`. -/
theorem State.setV_advance_eq (s : State) (x : RegIx) (b : Byte) :
    (s.setV x b).advance = { s with v := (s.setV x b).v, pc := s.pcPlus 2 } := by
  rw [State.advance_eq]
  rfl

theorem length_bcdDigits (b : Byte) : (bcdDigits b).length = 3 := rfl

/-- The three digits are decimal digits, and their positional sum is the byte (R113). -/
theorem bcdDigits_sum (b : Byte) :
    ∃ h t o : Byte, bcdDigits b = [h, t, o] ∧ h.toNat ≤ 2 ∧ t.toNat ≤ 9 ∧ o.toNat ≤ 9 ∧
      100 * h.toNat + 10 * t.toNat + o.toNat = b.toNat := by
  refine ⟨_, _, _, rfl, ?_, ?_, ?_, ?_⟩ <;> simp only [BitVec.toNat_ofNat] <;> have := b.isLt <;> omega

theorem State.length_firstRegs (s : State) (n : Nat) : (s.firstRegs n).length = n := by
  induction n with
  | zero => rfl
  | succ n ih => simp [State.firstRegs, ih]

/-- Byte `k` of the registers stored is `V[k]`. -/
theorem State.getElem?_firstRegs (s : State) {n k : Nat} (h : k < n) :
    (s.firstRegs n)[k]? = some (s.getV (regOfNat k)) := by
  induction n with
  | zero => omega
  | succ n ih =>
    unfold State.firstRegs
    by_cases hk : k < n
    · rw [List.getElem?_append_left (by simpa [State.length_firstRegs] using hk), ih hk]
    · have hkn : k = n := by omega
      subst hkn
      rw [List.getElem?_append_right (by simp [State.length_firstRegs])]
      simp [State.length_firstRegs]

/-- `loadFirstRegs` writes general registers only. -/
theorem State.loadFirstRegs_eq (s : State) (n : Nat) :
    s.loadFirstRegs n = { s with v := (s.loadFirstRegs n).v } := by
  induction n with
  | zero => rfl
  | succ n ih =>
    unfold State.loadFirstRegs State.setV
    rw [ih]

/-- After loading `n` registers, `V[r]` is byte `r` of the run for `r < n` and unchanged above. -/
theorem State.getV_loadFirstRegs (s : State) {n : Nat} (hn : n ≤ 16) (r : RegIx) :
    (s.loadFirstRegs n).getV r = if r.val < n then s.mem.read (s.dataAddr r.val) else s.getV r := by
  induction n with
  | zero => simp [State.loadFirstRegs]
  | succ n ih =>
    unfold State.loadFirstRegs
    rw [State.getV_setV, ih (by omega)]
    have hv : (regOfNat n).val = n := Nat.mod_eq_of_lt (by omega)
    by_cases h : r = regOfNat n
    · simp [h, hv]
    · have h' : r.val ≠ n := fun e => h (Fin.ext (by rw [hv, e]))
      by_cases h2 : r.val < n
      · have h3 : r.val < n + 1 := by omega
        simp [h, h2, h3]
      · have h3 : ¬ r.val < n + 1 := by omega
        simp [h, h2, h3]

end Sys2Proof.Machine
end

