-- ==== Sys2Proof/Laws/Driver.lean ====
section
/-! SUPPORT. What a step can do: one lemma for `Step`, one for each host event, one for `Machine.step`. -/

namespace Sys2Proof.Machine

open Sys2Proof.Config

/-! ### `Step` -/

/-- Everything a `Step` that answers a next state can have done: nothing (the engine was not `Ready`), taken a fetch
fault, or executed the decoded word. -/
theorem State.stepCore_cases {s t : State} (h : s.stepCore = .next t) :
    (s.engine ≠ .ready ∧ t = s) ∨
    (∃ c, s.engine = .ready ∧ fetch s.prog s.pc = .fault c ∧ t = s.raise (.fetchFault c)) ∨
    (∃ w, s.engine = .ready ∧ fetch s.prog s.pc = .word w ∧ cautionRefusal s.cfg (decode w) = none ∧
      exec (decode w) s = .next t) := by
  unfold State.stepCore at h
  split at h
  · rename_i he
    split at h
    · rename_i w hw
      unfold executeWord at h
      split at h
      · simp at h
      · rename_i hc; exact .inr (.inr ⟨w, he, hw, hc, h⟩)
    · rename_i c hc
      exact .inr (.inl ⟨c, he, hc, by injection h with h; exact h.symm⟩)
  · rename_i he; exact .inl ⟨by simp [he], by injection h with h; exact h.symm⟩
  · rename_i e he; exact .inl ⟨by simp [he], by injection h with h; exact h.symm⟩

/-- A `Ready` core executes the word at `PC` unless a caution switch refuses it. -/
theorem State.stepCore_of_word {s : State} {w : Word} (he : s.engine = .ready) (hw : fetch s.prog s.pc = .word w)
    (hc : cautionRefusal s.cfg (decode w) = none) : s.stepCore = exec (decode w) s := by
  simp [State.stepCore, he, hw, executeWord, hc]

/-- No caution switch refuses an instruction for which both are off or do not apply. -/
theorem cautionRefusal_eq_none {p : Params} {i : Instr} (h1 : p.decodeStrict = false ∨ i.canonical = true)
    (h2 : p.refuseFlagAlias = false ∨ flagAliased i = false) : cautionRefusal p i = none := by
  unfold cautionRefusal
  rcases h1 with h1 | h1 <;> rcases h2 with h2 | h2 <;> simp [h1, h2]

/-! ### Host events -/

/-- Everything a `KeyEvent` that answers a next state can have done: nothing (the engine was not waiting), or completed
the waiting `Fx0A`. -/
theorem State.keyEvent_cases {s t : State} {k : KeyCode} (h : s.keyEvent k = .next t) :
    (s.engine ≠ .awaitingKey ∧ t = s) ∨
    (∃ w, s.engine = .awaitingKey ∧ fetch s.prog s.pc = .word w ∧
      t = ((s.setV (xOf w) (BitVec.ofNat 8 k.val)).advance).setEngine .ready) := by
  unfold State.keyEvent at h
  split at h
  · rename_i he
    split at h
    · rename_i w hw; exact .inr ⟨w, he, hw, by injection h with h; exact h.symm⟩
    · simp at h
  · rename_i he; exact .inl ⟨by simp [he], by injection h with h; exact h.symm⟩
  · rename_i e he; exact .inl ⟨by simp [he], by injection h with h; exact h.symm⟩

/-- A tick touches the timers only. -/
theorem State.timerTick_eq (s : State) : s.timerTick = { s with dt := countDown s.dt, st := countDown s.st } := rfl

/-- A timer counts down by one and stays at 0. -/
theorem toNat_countDown (b : Byte) : (countDown b).toNat = b.toNat - 1 := by
  unfold countDown
  have := b.isLt
  split
  · have h1 : (1 : Byte).toNat = 1 := rfl
    rw [BitVec.toNat_sub, h1]
    omega
  · omega

/-! ### `Load` -/

/-- What `Load` does: an error marks the launch and writes nothing; else bytes, words and launch are set. -/
theorem State.loadRom_cases (s : State) (rom : List Byte) :
    (rom.length % 2 = 1 ∧ s.loadRom rom = { s with phase := .loadFailed .oddLength }) ∨
    (rom.length % 2 = 0 ∧ s.cfg.maxProgramLen < rom.length ∧
      s.loadRom rom = { s with phase := .loadFailed .tooLarge }) ∨
    (rom.length % 2 = 0 ∧ rom.length ≤ s.cfg.maxProgramLen ∧
      s.loadRom rom =
        { s with mem := s.mem.writeBytes 0x200 rom, prog := wordsOfRom rom, phase := .loaded }) := by
  unfold State.loadRom loadCheck
  by_cases h1 : rom.length % 2 = 1
  · exact .inl ⟨h1, by simp [h1]⟩
  · have h1' : rom.length % 2 = 0 := by omega
    by_cases h2 : s.cfg.maxProgramLen < rom.length
    · exact .inr (.inl ⟨h1', h2, by simp [h1', h2]⟩)
    · exact .inr (.inr ⟨h1', by omega, by simp [h1', h2, memStart]⟩)

/-- The words of a rom are its byte pairs, big-endian (R38). -/
theorem getElem?_wordsOfRom {rom : List Byte} {k : Nat} {l r : Byte} (hl : rom[2 * k]? = some l)
    (hr : rom[2 * k + 1]? = some r) : (wordsOfRom rom)[k]? = some (wordOfBytes l r) := by
  induction rom using wordsOfRom.induct generalizing k with
  | case1 a b rest ih =>
    cases k with
    | zero => simp at hl hr; simp [wordsOfRom, hl, hr]
    | succ k =>
      have e1 : 2 * (k + 1) = 2 * k + 1 + 1 := by omega
      have e2 : 2 * (k + 1) + 1 = 2 * k + 1 + 1 + 1 := by omega
      rw [e1] at hl; rw [e2] at hr
      simp only [List.getElem?_cons_succ] at hl hr
      simpa [wordsOfRom] using ih hl hr
  | case2 rom h =>
    cases rom with
    | nil => simp at hl
    | cons a t =>
      cases t with
      | nil => simp at hr
      | cons b t => exact absurd rfl (h a b t)

/-! ### `Machine.step` -/

/-- A step is the agenda's first transaction, or `Step`. -/
theorem step_of_cons {s : State} {t : Transaction} {rest : List Transaction} (h : s.agenda = t :: rest) :
    step s = (s.setAgenda rest).transact t := by
  simp [step, h]

theorem step_of_nil {s : State} (h : s.agenda = []) : step s = s.transact .step := by
  simp [step, h]

/-- Taking nothing off an empty agenda changes nothing. -/
theorem State.afterIssue_of_nil {s : State} (h : s.agenda = []) : s.afterIssue = s := by
  cases s
  simp only at h
  subst h
  rfl

/-- When the next transaction is a `Step` of a running core, a step is `stepCore` on the state after issue. -/
theorem step_of_atStep {s : State} (h : s.atStep) : step s = s.afterIssue.stepCore := by
  obtain ⟨hp, hn | ⟨rest, hr⟩⟩ := h
  · rw [step_of_nil hn, State.afterIssue_of_nil hn]
    simp [State.transact, hp, State.transactRunning]
  · rw [step_of_cons hr]
    simp [State.transact, hp, State.transactRunning, State.afterIssue, hr]

/-- Everything a step of a running core that answers a next state can have done. -/
theorem step_cases_running {s t : State} (hp : s.phase = .running) (h : step s = .next t) :
    (s.atStep ∧ s.afterIssue.stepCore = .next t) ∨
    (∃ rest, s.agenda = .reset :: rest ∧ t = (s.setAgenda rest).resetCore) ∨
    (∃ rest, s.agenda = .timerTick :: rest ∧ t = (s.setAgenda rest).timerTick) ∨
    (∃ k rest, s.agenda = .keyEvent k :: rest ∧ (s.setAgenda rest).keyEvent k = .next t) := by
  cases ha : s.agenda with
  | nil => exact .inl ⟨⟨hp, .inl ha⟩, by rw [← step_of_atStep ⟨hp, .inl ha⟩, h]⟩
  | cons c rest =>
    rw [step_of_cons ha] at h
    simp only [State.transact, State.setAgenda_phase, hp, State.transactRunning] at h
    cases c with
    | load rom => simp at h
    | reset => exact .inr (.inl ⟨rest, rfl, by injection h with h; exact h.symm⟩)
    | step =>
      have hs : s.atStep := ⟨hp, .inr ⟨rest, ha⟩⟩
      exact .inl ⟨hs, by simpa [State.afterIssue, ha] using h⟩
    | timerTick => exact .inr (.inr (.inl ⟨rest, rfl, by injection h with h; exact h.symm⟩))
    | keyEvent k => exact .inr (.inr (.inr ⟨k, rest, rfl, h⟩))

/-- Everything a step of a core that is not running can answer with a next state: `Load` before any, or `Reset` after
it. -/
theorem step_cases_launch {s t : State} (hp : s.phase ≠ .running) (h : step s = .next t) :
    (∃ rom rest, s.phase = .noProgram ∧ s.agenda = .load rom :: rest ∧ t = (s.setAgenda rest).loadRom rom) ∨
    (∃ rest, s.phase = .loaded ∧ s.agenda = .reset :: rest ∧ t = (s.setAgenda rest).resetCore) := by
  cases ha : s.agenda with
  | nil =>
    rw [step_of_nil ha] at h
    unfold State.transact at h
    cases hq : s.phase <;> simp_all
  | cons c rest =>
    rw [step_of_cons ha] at h
    unfold State.transact at h
    simp only [State.setAgenda_phase] at h
    cases hq : s.phase with
    | running => exact absurd hq hp
    | loadFailed e => simp [hq] at h
    | noProgram =>
      cases c <;> simp [hq] at h
      rename_i rom
      exact .inl ⟨rom, rest, rfl, rfl, h.symm⟩
    | loaded =>
      cases c <;> simp [hq] at h
      exact .inr ⟨rest, rfl, rfl, h.symm⟩

/-! ### Runs -/

theorem runFor_zero (s : State) : runFor 0 s = .next s := rfl

theorem run_succ_of_next (M : Host.Core) {n : Nat} {s t : M.State} (h : M.step s = .next t) :
    M.run (n + 1) s = M.run n t := by
  simp [Host.Core.run, h]

theorem run_succ_cases (M : Host.Core) {n : Nat} {s t : M.State} (h : M.run (n + 1) s = .next t) :
    ∃ u, M.step s = .next u ∧ M.run n u = .next t := by
  unfold Host.Core.run at h
  split at h
  · rename_i u hu; exact ⟨u, hu, h⟩
  · cases h
  · cases h

/-- A step that answers a next state, then a run of `n`, is a run of `n + 1`. -/
theorem runFor_succ_of_next {n : Nat} {s t : State} (h : step s = .next t) : runFor (n + 1) s = runFor n t :=
  run_succ_of_next Sys2Proof.core h

/-- A run of `n + 1` steps that answers a next state went through a first step that did. -/
theorem runFor_succ_cases {n : Nat} {s t : State} (h : runFor (n + 1) s = .next t) :
    ∃ u, step s = .next u ∧ runFor n u = .next t :=
  run_succ_cases Sys2Proof.core h

/-! ### The word that `withFetchWord` places -/

/-- The next step of `s.withFetchWord 16 w` fetches exactly the word `w`. -/
theorem fetch_withFetchWord (s : State) (w : Nat) :
    fetch (s.withFetchWord 16 w).prog (s.withFetchWord 16 w).pc = .word (BitVec.ofNat 16 w) := by
  have hcode : (codePc s.pc).toNat % 2 = 0 ∧ 0x200 ≤ (codePc s.pc).toNat := by
    unfold codePc isCodeAddr
    split
    · rename_i h
      simp only [Bool.and_eq_true, decide_eq_true_eq] at h
      exact h
    · simp [memStart]
  rw [fetch_eq_word_iff]
  refine ⟨hcode.1, hcode.2, ?_⟩
  change (placeWord s.prog (((codePc s.pc).toNat - 0x200) / 2) (BitVec.ofNat 16 (w % 2 ^ 16)))[_]? = _
  have e : BitVec.ofNat 16 (w % 2 ^ 16) = BitVec.ofNat 16 w := by
    apply BitVec.eq_of_toNat_eq; simp
  rw [e]
  exact getElem?_placeWord _ _ _

/-! ### The address map (R33) -/

/-- A program that fits lies below the display region, so the two ranges never overlap. -/
theorem regionOf_program {s : State} {a : Addr} (h : s.ProgFits) (h1 : 0x200 ≤ a.toNat)
    (h2 : a.toNat < 0x200 + 2 * s.prog.length) :
    regionOf s.cfg (2 * s.prog.length) a = .program ∧ a.toNat + s.cfg.displayRegionSize < 4096 := by
  unfold State.ProgFits Params.maxProgramLen at h
  simp only [insnBytes, memSize, memStart] at h
  unfold regionOf
  simp only [memStart]
  constructor
  · simp [Nat.not_lt.2 h1, h2]
  · omega

end Sys2Proof.Machine
end

