-- ==== Sys2Proof/Laws/Exec.lean ====
section
/-! SUPPORT. What `exec` can do, said once for all instructions: the return, the call, the key wait, and the rest, which
touch no stack, engine, program, parameter or launch. -/

namespace Sys2Proof.Machine

open Sys2Proof.Config

/-! ### Capability calls touch the calls, the host's answers and the free-value counter only -/

theorem State.nextByte_eq (s : State) :
    s.nextByte.2 =
      { s with
        calls := s.nextByte.2.calls, entropyIn := s.nextByte.2.entropyIn, freeIx := s.nextByte.2.freeIx } := by
  rcases State.nextByte_cases s with ⟨_, _, _, h⟩ | ⟨_, h⟩ <;> rw [h]

theorem State.drawSprite_eq (s : State) (x y : Byte) (rows : List Byte) :
    (s.drawSprite x y rows).2 =
      { s with
        calls := (s.drawSprite x y rows).2.calls, collisionIn := (s.drawSprite x y rows).2.collisionIn,
        freeIx := (s.drawSprite x y rows).2.freeIx } := by
  rcases State.drawSprite_cases s x y rows with ⟨_, _, _, h⟩ | ⟨_, h⟩ <;> rw [h]

theorem State.isKeyDown_eq (s : State) (c : KeyCode) :
    (s.isKeyDown c).2 =
      { s with
        calls := (s.isKeyDown c).2.calls, keyIn := (s.isKeyDown c).2.keyIn,
        freeIx := (s.isKeyDown c).2.freeIx } := by
  rcases State.isKeyDown_cases s c with ⟨_, _, _, h⟩ | ⟨_, h⟩ <;> rw [h]

/-! ### Addresses of a run (R34) -/

/-- Byte `k` of a run from `I` has offset `k`. -/
theorem offsetFrom_dataAddr (s : State) {k : Nat} (hk : k < 4096) : offsetFrom s.ireg (s.dataAddr k) = k := by
  unfold offsetFrom State.dataAddr
  simp
  omega

/-- An address whose offset from `I` is below `n` is one of the first `n` of the run. -/
theorem exists_dataAddr_of_offset_lt (s : State) {a : Addr} {n : Nat} (h : offsetFrom s.ireg a < n) :
    ∃ k < n, a = s.dataAddr k := by
  refine ⟨_, h, ?_⟩
  unfold State.dataAddr offsetFrom
  apply BitVec.eq_of_toNat_eq
  have := a.isLt
  have := s.ireg.isLt
  simp
  omega

/-! ### `exec` -/

/-- The return: it pops, or it faults on an empty stack (R71, R145). -/
theorem exec_ret_cases {x : Nibble} {s t : State} (h : exec (.ret x) s = .next t) :
    (∃ a s', s.pop = some (a, s') ∧ t = s'.setPc a) ∨ (s.sp.val = 0 ∧ t = s.raise .stackUnderflow) := by
  simp only [exec, execRet] at h
  split at h
  · rename_i a s' hp; exact .inl ⟨a, s', hp, by injection h with h; exact h.symm⟩
  · rename_i hp; exact .inr ⟨State.pop_eq_none_iff.1 hp, by injection h with h; exact h.symm⟩

/-- The call: it pushes, or it faults on a full stack (R73, R145). -/
theorem exec_call_cases {nnn : Addr} {s t : State} (h : exec (.call nnn) s = .next t) :
    (∃ s', s.push (s.pc + 2) = some s' ∧ t = s'.setPc nnn) ∨ (s.sp.val = 16 ∧ t = s.raise .stackOverflow) := by
  simp only [exec, execCall] at h
  split at h
  · rename_i s' hp; exact .inl ⟨s', hp, by injection h with h; exact h.symm⟩
  · rename_i hp; exact .inr ⟨State.push_eq_none_iff.1 hp, by injection h with h; exact h.symm⟩

/-- What an instruction other than the return, the call and the key wait may touch: registers, `I`, `PC`, the timers,
memory and the host's side of the capabilities. -/
def SameButData (s t : State) : Prop :=
  t = { s with
    v := t.v, ireg := t.ireg, pc := t.pc, dt := t.dt, st := t.st, mem := t.mem, calls := t.calls,
    entropyIn := t.entropyIn, collisionIn := t.collisionIn, keyIn := t.keyIn, freeIx := t.freeIx }

/-- Everything an instruction that answers a next state can have done. -/
theorem exec_next_cases {i : Instr} {s t : State} (h : exec i s = .next t) :
    (∃ x a s', i = .ret x ∧ s.pop = some (a, s') ∧ t = s'.setPc a) ∨
    (∃ x, i = .ret x ∧ s.sp.val = 0 ∧ t = s.raise .stackUnderflow) ∨
    (∃ nnn s', i = .call nnn ∧ s.push (s.pc + 2) = some s' ∧ t = s'.setPc nnn) ∨
    (∃ nnn, i = .call nnn ∧ s.sp.val = 16 ∧ t = s.raise .stackOverflow) ∨
    (∃ x, i = .ldXK x ∧ t = s.setEngine .awaitingKey) ∨
    (i.variant ∉ [.ret, .call, .ldXK] ∧ SameButData s t ∧ (s.mem.wf = true → t.mem.wf = true)) := by
  cases i
  case ret x =>
    rcases exec_ret_cases h with ⟨a, s', h⟩ | h
    · exact .inl ⟨x, a, s', rfl, h⟩
    · exact .inr (.inl ⟨x, rfl, h⟩)
  case call nnn =>
    rcases exec_call_cases h with ⟨s', h⟩ | h
    · exact .inr (.inr (.inl ⟨nnn, s', rfl, h⟩))
    · exact .inr (.inr (.inr (.inl ⟨nnn, rfl, h⟩)))
  case ldXK x => exact .inr (.inr (.inr (.inr (.inl ⟨x, rfl, by injection h with h; exact h.symm⟩))))
  case skp x =>
    simp only [exec, execSkp] at h
    split at h
    · injection h with h
      subst h
      refine .inr (.inr (.inr (.inr (.inr ⟨by simp [Instr.variant], ?_, ?_⟩))))
      · unfold SameButData; rw [State.skipIf_eq, State.isKeyDown_eq]
      · rw [State.skipIf_eq, State.isKeyDown_eq]; exact id
    · cases h
  case sknp x =>
    simp only [exec, execSknp] at h
    split at h
    · injection h with h
      subst h
      refine .inr (.inr (.inr (.inr (.inr ⟨by simp [Instr.variant], ?_, ?_⟩))))
      · unfold SameButData; rw [State.skipIf_eq, State.isKeyDown_eq]
      · rw [State.skipIf_eq, State.isKeyDown_eq]; exact id
    · cases h
  case ldF x =>
    simp only [exec, execLdF] at h
    split at h
    · injection h with h
      subst h
      exact .inr (.inr (.inr (.inr (.inr ⟨by simp [Instr.variant], rfl, id⟩))))
    · cases h
  case rnd x kk =>
    injection h with h
    subst h
    refine .inr (.inr (.inr (.inr (.inr ⟨by simp [Instr.variant], ?_, ?_⟩))))
    · unfold SameButData; rw [State.nextByte_eq]; rfl
    · rw [State.nextByte_eq]; exact id
  case drw x y n =>
    injection h with h
    subst h
    refine .inr (.inr (.inr (.inr (.inr ⟨by simp [Instr.variant], ?_, ?_⟩))))
    · unfold SameButData; rw [State.drawSprite_eq]; rfl
    · rw [State.drawSprite_eq]; exact id
  case ldRegs x =>
    injection h with h
    subst h
    refine .inr (.inr (.inr (.inr (.inr ⟨by simp [Instr.variant], ?_, ?_⟩))))
    · unfold SameButData; rw [State.loadFirstRegs_eq]; rfl
    · rw [State.loadFirstRegs_eq]; exact id
  case ldB x =>
    injection h with h
    subst h
    exact .inr (.inr (.inr (.inr (.inr ⟨by simp [Instr.variant], rfl, fun hm => Memory.wf_writeBytes hm _ _⟩))))
  case stRegs x =>
    injection h with h
    subst h
    exact .inr (.inr (.inr (.inr (.inr ⟨by simp [Instr.variant], rfl, fun hm => Memory.wf_writeBytes hm _ _⟩))))
  all_goals
    injection h with h
    subst h
    exact .inr (.inr (.inr (.inr (.inr ⟨by simp [Instr.variant], rfl, id⟩))))

/-- No instruction touches the program, the parameters, the launch or the agenda, and each keeps the canonical form of
memory. -/
theorem exec_frame {i : Instr} {s t : State} (h : exec i s = .next t) :
    t.prog = s.prog ∧ t.cfg = s.cfg ∧ t.phase = s.phase ∧ t.agenda = s.agenda ∧
      (s.mem.wf = true → t.mem.wf = true) := by
  rcases exec_next_cases h with ⟨x, a, s', _, hp, rfl⟩ | ⟨x, _, _, rfl⟩ | ⟨nnn, s', _, hp, rfl⟩ | ⟨nnn, _, _, rfl⟩ |
    ⟨x, _, rfl⟩ | ⟨_, hf, hm⟩
  · obtain ⟨_, _, rfl⟩ := State.pop_eq_some_iff.1 hp
    exact ⟨rfl, rfl, rfl, rfl, id⟩
  · exact ⟨rfl, rfl, rfl, rfl, id⟩
  · obtain ⟨_, rfl⟩ := State.push_eq_some_iff.1 hp
    exact ⟨rfl, rfl, rfl, rfl, id⟩
  · exact ⟨rfl, rfl, rfl, rfl, id⟩
  · exact ⟨rfl, rfl, rfl, rfl, id⟩
  · unfold SameButData at hf
    exact ⟨by rw [hf], by rw [hf], by rw [hf], by rw [hf], hm⟩

end Sys2Proof.Machine
end

