-- ==== Sys2Proof/Laws/PerInstr.lean ====
section
/-! SUPPORT. The per-instruction family `EncodedRow`: the word of an instruction carries the fixed bits of a
row of its variant in the opcode map (R55, R56). One lemma for each constructor. -/

namespace Sys2Proof.Laws.EncodedRow

/-- Some row of the instruction's variant selects its word. -/
def Statement (i : Instr) : Prop :=
  ∃ row ∈ opcodeTable, row.variant = i.variant ∧ row.selects (encode i) = true

/-- A family-only row (R55): the word's first nibble is the family. -/
theorem of_family {v : Variant} {f : Nibble} {w : Word} (hr : ⟨v, wordNNN f 0, 0xF000, 1⟩ ∈ opcodeTable)
    (hf : familyOf w = f) : ∃ row ∈ opcodeTable, row.variant = v ∧ row.selects w = true :=
  ⟨_, hr, rfl, beq_iff_eq.2 ((and_familyMask w).trans (by rw [hf]))⟩

/-- A row with a whole second byte as sub-selector (R55). -/
theorem of_byte {v : Variant} {f : Nibble} {kk : Byte} {w : Word}
    (hr : ⟨v, wordXKK f 0 kk, 0xF0FF, 2⟩ ∈ opcodeTable) (hf : familyOf w = f) (hk : kkOf w = kk) :
    ∃ row ∈ opcodeTable, row.variant = v ∧ row.selects w = true :=
  ⟨_, hr, rfl, beq_iff_eq.2 ((and_byteMask w).trans (by rw [hf, hk]))⟩

/-- A row with the low nibble as sub-selector (R55). -/
theorem of_nibble {v : Variant} {f n : Nibble} {w : Word}
    (hr : ⟨v, wordXYN f 0 0 n, 0xF00F, 2⟩ ∈ opcodeTable) (hf : familyOf w = f) (hn : nOf w = n) :
    ∃ row ∈ opcodeTable, row.variant = v ∧ row.selects w = true :=
  ⟨_, hr, rfl, beq_iff_eq.2 ((and_nibbleMask w).trans (by rw [hf, hn]))⟩

theorem cls (x : Nibble) : Statement (.cls x) :=
  of_byte (v := .cls) (f := 0x0) (kk := 0xE0) (by decide) (familyOf_wordXKK ..) (kkOf_wordXKK ..)

theorem ret (x : Nibble) : Statement (.ret x) :=
  of_byte (v := .ret) (f := 0x0) (kk := 0xEE) (by decide) (familyOf_wordXKK ..) (kkOf_wordXKK ..)

theorem sys (nnn : Addr) : Statement (.sys nnn) :=
  of_family (v := .sys) (f := 0x0) (by decide) (familyOf_wordNNN ..)

theorem jp (nnn : Addr) : Statement (.jp nnn) :=
  of_family (v := .jp) (f := 0x1) (by decide) (familyOf_wordNNN ..)

theorem call (nnn : Addr) : Statement (.call nnn) :=
  of_family (v := .call) (f := 0x2) (by decide) (familyOf_wordNNN ..)

theorem seImm (x : RegIx) (kk : Byte) : Statement (.seImm x kk) :=
  of_family (v := .seImm) (f := 0x3) (by decide) (familyOf_wordXKK ..)

theorem sneImm (x : RegIx) (kk : Byte) : Statement (.sneImm x kk) :=
  of_family (v := .sneImm) (f := 0x4) (by decide) (familyOf_wordXKK ..)

theorem seReg (x y : RegIx) (n : Nibble) : Statement (.seReg x y n) :=
  of_family (v := .seReg) (f := 0x5) (by decide) (familyOf_wordXYN ..)

theorem ldImm (x : RegIx) (kk : Byte) : Statement (.ldImm x kk) :=
  of_family (v := .ldImm) (f := 0x6) (by decide) (familyOf_wordXKK ..)

theorem addImm (x : RegIx) (kk : Byte) : Statement (.addImm x kk) :=
  of_family (v := .addImm) (f := 0x7) (by decide) (familyOf_wordXKK ..)

theorem ldReg (x y : RegIx) : Statement (.ldReg x y) :=
  of_nibble (v := .ldReg) (f := 0x8) (n := 0x0) (by decide) (familyOf_wordXYN ..) (nOf_wordXYN ..)

theorem orReg (x y : RegIx) : Statement (.orReg x y) :=
  of_nibble (v := .orReg) (f := 0x8) (n := 0x1) (by decide) (familyOf_wordXYN ..) (nOf_wordXYN ..)

theorem andReg (x y : RegIx) : Statement (.andReg x y) :=
  of_nibble (v := .andReg) (f := 0x8) (n := 0x2) (by decide) (familyOf_wordXYN ..) (nOf_wordXYN ..)

theorem xorReg (x y : RegIx) : Statement (.xorReg x y) :=
  of_nibble (v := .xorReg) (f := 0x8) (n := 0x3) (by decide) (familyOf_wordXYN ..) (nOf_wordXYN ..)

theorem addReg (x y : RegIx) : Statement (.addReg x y) :=
  of_nibble (v := .addReg) (f := 0x8) (n := 0x4) (by decide) (familyOf_wordXYN ..) (nOf_wordXYN ..)

theorem sub (x y : RegIx) : Statement (.sub x y) :=
  of_nibble (v := .sub) (f := 0x8) (n := 0x5) (by decide) (familyOf_wordXYN ..) (nOf_wordXYN ..)

theorem shr (x y : RegIx) : Statement (.shr x y) :=
  of_nibble (v := .shr) (f := 0x8) (n := 0x6) (by decide) (familyOf_wordXYN ..) (nOf_wordXYN ..)

theorem subn (x y : RegIx) : Statement (.subn x y) :=
  of_nibble (v := .subn) (f := 0x8) (n := 0x7) (by decide) (familyOf_wordXYN ..) (nOf_wordXYN ..)

theorem shl (x y : RegIx) : Statement (.shl x y) :=
  of_nibble (v := .shl) (f := 0x8) (n := 0xE) (by decide) (familyOf_wordXYN ..) (nOf_wordXYN ..)

theorem sneReg (x y : RegIx) (n : Nibble) : Statement (.sneReg x y n) :=
  of_family (v := .sneReg) (f := 0x9) (by decide) (familyOf_wordXYN ..)

theorem ldI (nnn : Addr) : Statement (.ldI nnn) :=
  of_family (v := .ldI) (f := 0xA) (by decide) (familyOf_wordNNN ..)

theorem jpV0 (nnn : Addr) : Statement (.jpV0 nnn) :=
  of_family (v := .jpV0) (f := 0xB) (by decide) (familyOf_wordNNN ..)

theorem rnd (x : RegIx) (kk : Byte) : Statement (.rnd x kk) :=
  of_family (v := .rnd) (f := 0xC) (by decide) (familyOf_wordXKK ..)

theorem drw (x y : RegIx) (n : Nibble) : Statement (.drw x y n) :=
  of_family (v := .drw) (f := 0xD) (by decide) (familyOf_wordXYN ..)

theorem skp (x : RegIx) : Statement (.skp x) :=
  of_byte (v := .skp) (f := 0xE) (kk := 0x9E) (by decide) (familyOf_wordXKK ..) (kkOf_wordXKK ..)

theorem sknp (x : RegIx) : Statement (.sknp x) :=
  of_byte (v := .sknp) (f := 0xE) (kk := 0xA1) (by decide) (familyOf_wordXKK ..) (kkOf_wordXKK ..)

theorem ldXDt (x : RegIx) : Statement (.ldXDt x) :=
  of_byte (v := .ldXDt) (f := 0xF) (kk := 0x07) (by decide) (familyOf_wordXKK ..) (kkOf_wordXKK ..)

theorem ldXK (x : RegIx) : Statement (.ldXK x) :=
  of_byte (v := .ldXK) (f := 0xF) (kk := 0x0A) (by decide) (familyOf_wordXKK ..) (kkOf_wordXKK ..)

theorem ldDtX (x : RegIx) : Statement (.ldDtX x) :=
  of_byte (v := .ldDtX) (f := 0xF) (kk := 0x15) (by decide) (familyOf_wordXKK ..) (kkOf_wordXKK ..)

theorem ldStX (x : RegIx) : Statement (.ldStX x) :=
  of_byte (v := .ldStX) (f := 0xF) (kk := 0x18) (by decide) (familyOf_wordXKK ..) (kkOf_wordXKK ..)

theorem addI (x : RegIx) : Statement (.addI x) :=
  of_byte (v := .addI) (f := 0xF) (kk := 0x1E) (by decide) (familyOf_wordXKK ..) (kkOf_wordXKK ..)

theorem ldF (x : RegIx) : Statement (.ldF x) :=
  of_byte (v := .ldF) (f := 0xF) (kk := 0x29) (by decide) (familyOf_wordXKK ..) (kkOf_wordXKK ..)

theorem ldB (x : RegIx) : Statement (.ldB x) :=
  of_byte (v := .ldB) (f := 0xF) (kk := 0x33) (by decide) (familyOf_wordXKK ..) (kkOf_wordXKK ..)

theorem stRegs (x : RegIx) : Statement (.stRegs x) :=
  of_byte (v := .stRegs) (f := 0xF) (kk := 0x55) (by decide) (familyOf_wordXKK ..) (kkOf_wordXKK ..)

theorem ldRegs (x : RegIx) : Statement (.ldRegs x) :=
  of_byte (v := .ldRegs) (f := 0xF) (kk := 0x65) (by decide) (familyOf_wordXKK ..) (kkOf_wordXKK ..)

theorem unmapped8 (x y : RegIx) (n : Nibble) : Statement (.unmapped8 x y n) :=
  of_family (v := .unmapped) (f := 0x8) (by decide) (familyOf_wordXYN ..)

theorem unmappedE (x : RegIx) (kk : Byte) : Statement (.unmappedE x kk) :=
  of_family (v := .unmapped) (f := 0xE) (by decide) (familyOf_wordXKK ..)

theorem unmappedF (x : RegIx) (kk : Byte) : Statement (.unmappedF x kk) :=
  of_family (v := .unmapped) (f := 0xF) (by decide) (familyOf_wordXKK ..)

end Sys2Proof.Laws.EncodedRow
end

