-- ==== Sys2Proof/Laws/Schedule.lean ====
section
/-! SUPPORT. Unbounded runs under a host schedule: nothing but the agenda itself depends on the agenda, so that every
finite part of such a run is the run of an agenda. -/

namespace Sys2Proof.Machine

open Sys2Proof.Config

/-! ### No meaning reads the agenda -/

theorem State.firstRegs_setAgenda (s : State) (l : List Transaction) (n : Nat) :
    (s.setAgenda l).firstRegs n = s.firstRegs n := by
  induction n with
  | zero => rfl
  | succ n ih => unfold State.firstRegs; rw [ih]; rfl

theorem State.loadFirstRegs_setAgenda (s : State) (l : List Transaction) (n : Nat) :
    (s.setAgenda l).loadFirstRegs n = (s.loadFirstRegs n).setAgenda l := by
  induction n with
  | zero => rfl
  | succ n ih =>
    unfold State.loadFirstRegs
    rw [ih]
    rfl

theorem State.nextByte_setAgenda (s : State) (l : List Transaction) :
    (s.setAgenda l).nextByte = (s.nextByte.1, s.nextByte.2.setAgenda l) := by
  unfold State.nextByte
  simp only [State.setAgenda_entropyIn]
  cases s.entropyIn <;> rfl

theorem State.drawSprite_setAgenda (s : State) (l : List Transaction) (x y : Byte) (rows : List Byte) :
    (s.setAgenda l).drawSprite x y rows = ((s.drawSprite x y rows).1, (s.drawSprite x y rows).2.setAgenda l) := by
  unfold State.drawSprite
  simp only [State.setAgenda_collisionIn]
  cases s.collisionIn <;> rfl

theorem State.isKeyDown_setAgenda (s : State) (l : List Transaction) (c : KeyCode) :
    (s.setAgenda l).isKeyDown c = ((s.isKeyDown c).1, (s.isKeyDown c).2.setAgenda l) := by
  unfold State.isKeyDown
  simp only [State.setAgenda_keyIn]
  cases s.keyIn <;> rfl

/-- An instruction does the same whatever the agenda holds, and leaves the agenda. -/
theorem exec_setAgenda {i : Instr} {s t : State} (l : List Transaction) (h : exec i s = .next t) :
    exec i (s.setAgenda l) = .next (t.setAgenda l) := by
  cases i
  case ret x =>
    rcases exec_ret_cases h with ⟨a, s', hp, rfl⟩ | ⟨h0, rfl⟩
    · obtain ⟨hs, rfl, rfl⟩ := State.pop_eq_some_iff.1 hp
      have hp' : (s.setAgenda l).pop = some (_, _) := State.pop_eq_some_iff.2 ⟨hs, rfl, rfl⟩
      simp only [exec, execRet, hp']
      rfl
    · have hp' := (State.pop_eq_none_iff (s := s.setAgenda l)).2 h0
      simp only [exec, execRet, hp']
      rfl
  case call nnn =>
    rcases exec_call_cases h with ⟨s', hp, rfl⟩ | ⟨h0, rfl⟩
    · obtain ⟨hs, rfl⟩ := State.push_eq_some_iff.1 hp
      have hp' : (s.setAgenda l).push (s.pc + 2) = some _ := State.push_eq_some_iff.2 ⟨hs, rfl⟩
      simp only [exec, execCall, State.setAgenda_pc, hp']
      rfl
    · have hp' := (State.push_eq_none_iff (s := s.setAgenda l) (a := s.pc + 2)).2 h0
      simp only [exec, execCall, State.setAgenda_pc, hp']
      rfl
  case skp x =>
    simp only [exec, execSkp, State.setAgenda_cfg, State.setAgenda_getV] at h ⊢
    cases hc : keyCodeOf s.cfg (s.getV x) with
    | none => simp only [hc] at h; cases h
    | some c =>
      simp only [hc] at h ⊢
      injection h with h
      subst h
      simp only [State.isKeyDown_setAgenda]
      rfl
  case sknp x =>
    simp only [exec, execSknp, State.setAgenda_cfg, State.setAgenda_getV] at h ⊢
    cases hc : keyCodeOf s.cfg (s.getV x) with
    | none => simp only [hc] at h; cases h
    | some c =>
      simp only [hc] at h ⊢
      injection h with h
      subst h
      simp only [State.isKeyDown_setAgenda]
      rfl
  case ldF x =>
    simp only [exec, execLdF, State.setAgenda_cfg, State.setAgenda_getV] at h ⊢
    cases hc : keyCodeOf s.cfg (s.getV x) with
    | none => simp only [hc] at h; cases h
    | some c =>
      simp only [hc] at h ⊢
      injection h with h
      subst h
      rfl
  case rnd x kk =>
    injection h with h
    subst h
    simp only [exec, execRnd, State.nextByte_setAgenda]
    rfl
  case drw x y n =>
    injection h with h
    subst h
    change Host.Outcome.next _ = _
    simp only [State.setAgenda_getV]
    rw [State.drawSprite_setAgenda]
    rfl
  case stRegs x =>
    injection h with h
    subst h
    simp only [exec, execStRegs, State.firstRegs_setAgenda]
    rfl
  case ldRegs x =>
    injection h with h
    subst h
    simp only [exec, execLdRegs, State.loadFirstRegs_setAgenda]
    rfl
  all_goals
    injection h with h
    subst h
    rfl

/-- The same of `Step`. -/
theorem State.stepCore_setAgenda {s t : State} (l : List Transaction) (h : s.stepCore = .next t) :
    (s.setAgenda l).stepCore = .next (t.setAgenda l) := by
  rcases State.stepCore_cases h with ⟨he, rfl⟩ | ⟨c, he, hf, rfl⟩ | ⟨w, he, hw, hc, hx⟩
  · unfold State.stepCore
    simp only [State.setAgenda_engine]
    split
    · rename_i h1; exact absurd h1 he
    · rfl
    · rfl
  · simp only [State.stepCore, State.setAgenda_engine, State.setAgenda_prog, State.setAgenda_pc, he, hf]
    rfl
  · rw [State.stepCore_of_word (s := s.setAgenda l) he hw hc]
    exact exec_setAgenda l hx

/-- The same of a `KeyEvent`. -/
theorem State.keyEvent_setAgenda {s t : State} {k : KeyCode} (l : List Transaction) (h : s.keyEvent k = .next t) :
    (s.setAgenda l).keyEvent k = .next (t.setAgenda l) := by
  rcases State.keyEvent_cases h with ⟨he, rfl⟩ | ⟨w, he, hw, rfl⟩
  · unfold State.keyEvent
    simp only [State.setAgenda_engine]
    split
    · rename_i h1; exact absurd h1 he
    · rfl
    · rfl
  · simp only [State.keyEvent, State.setAgenda_engine, State.setAgenda_prog, State.setAgenda_pc, he, hw]
    rfl

/-- A transaction of a running core does the same whatever comes after it. -/
theorem step_append {s t : State} {c : Transaction} (rest : List Transaction) (hp : s.phase = .running)
    (h : step (s.setAgenda [c]) = .next t) : step (s.setAgenda (c :: rest)) = .next (t.setAgenda rest) := by
  rw [step_of_cons (s := s.setAgenda [c]) rfl] at h
  rw [step_of_cons (s := s.setAgenda (c :: rest)) rfl]
  change (s.setAgenda []).transact c = .next t at h
  change (s.setAgenda rest).transact c = .next (t.setAgenda rest)
  simp only [State.transact, State.setAgenda_phase, hp, State.transactRunning] at h ⊢
  cases c with
  | load rom => cases h
  | reset => injection h with h; subst h; rfl
  | step => exact State.stepCore_setAgenda (s := s.setAgenda []) rest h
  | timerTick => injection h with h; subst h; rfl
  | keyEvent k => exact State.keyEvent_setAgenda (s := s.setAgenda []) rest h

/-! ### Runs under a schedule -/

/-- A run that starts running keeps running. -/
theorem hostRun_running {h : Schedule} {σ : Nat → State} (hr : HostRun h σ) (hp : (σ 0).phase = .running) (n : Nat) :
    (σ n).phase = .running := by
  induction n with
  | zero => exact hp
  | succ n ih =>
    rcases step_cases_running (s := (σ n).setAgenda [h n]) ih (hr n) with
      ⟨_, h2⟩ | ⟨_, _, h2⟩ | ⟨_, _, h2⟩ | ⟨_, _, _, h2⟩
    · rcases State.stepCore_cases h2 with ⟨_, h3⟩ | ⟨_, _, _, h3⟩ | ⟨_, _, _, _, h3⟩
      · rw [h3]; exact ih
      · rw [h3]; exact ih
      · rw [(exec_frame h3).2.2.1]; exact ih
    · rw [h2]; rfl
    · rw [h2]; exact ih
    · rcases State.keyEvent_cases h2 with ⟨_, h3⟩ | ⟨_, _, _, h3⟩
      · rw [h3]; exact ih
      · rw [h3]; exact ih

/-- The transactions a schedule issues from point `m` on, `n` of them. -/
def issued (h : Schedule) (m : Nat) : Nat → List Transaction
  | 0 => []
  | n + 1 => h m :: issued h (m + 1) n

/-- Every finite part of a run under a schedule is the run of the agenda that lists its transactions (D26). -/
theorem hostRun_runFor {h : Schedule} {σ : Nat → State} (hr : HostRun h σ) (hp : (σ 0).phase = .running)
    (rest : List Transaction) (m n : Nat) :
    runFor n ((σ m).setAgenda (issued h m n ++ rest)) = .next ((σ (m + n)).setAgenda rest) := by
  induction n generalizing m with
  | zero => rfl
  | succ n ih =>
    have hs := step_append (issued h (m + 1) n ++ rest) (hostRun_running hr hp m) (hr m)
    rw [issued, List.cons_append, runFor_succ_of_next hs, ih (m + 1)]
    congr 3
    omega

end Sys2Proof.Machine
end

