-- ==== Sys2Proof/Tests/Slice0.lean ====
section
/-! SUPPORT. Tests and witnesses. Expected results come from 95_test_vectors.md (E1, E2, F1 to F7, S1 to S7), named in
each test, or from hand calculation by the rule named; witnesses meet the hypotheses of the statements. -/

namespace Sys2Proof.Tests

open Sys2Proof.Machine Sys2Proof.Config

/-! ### Well-formedness: each check refuses an ill-formed term, and takes its neighbour -/

theorem test_wf_sys : (Instr.sys 0x0E0).wellFormed = false ∧ (Instr.sys 0x1EE).wellFormed = false ∧
    (Instr.sys 0x0E1).wellFormed = true := by decide

theorem test_wf_unmapped8 : (Instr.unmapped8 1 2 0x4).wellFormed = false ∧
    (Instr.unmapped8 1 2 0xE).wellFormed = false ∧ (Instr.unmapped8 1 2 0x8).wellFormed = true := by decide

theorem test_wf_unmappedE : (Instr.unmappedE 0 0x9E).wellFormed = false ∧
    (Instr.unmappedE 0 0xA1).wellFormed = false ∧ (Instr.unmappedE 0 0xA2).wellFormed = true := by decide

theorem test_wf_unmappedF : (Instr.unmappedF 0 0x07).wellFormed = false ∧
    (Instr.unmappedF 0 0x65).wellFormed = false ∧ (Instr.unmappedF 0 0x66).wellFormed = true := by decide

/-- The canonical spellings of D1. -/
theorem test_canonical : (decode 0x00E0).canonical = true ∧ (decode 0x01E0).canonical = false ∧
    (decode 0x0AEE).canonical = false ∧ (decode 0x5121).canonical = false ∧ (decode 0x9127).canonical = false ∧
    (decode 0x8126).canonical = true := by decide

/-! ### Decoding: the words of E1, one for each variant, and of E2 -/

theorem test_decode_family0 : decode 0x00E0 = .cls 0x0 ∧ decode 0x00EE = .ret 0x0 ∧ decode 0x0123 = .sys 0x123 := by
  decide

theorem test_decode_family0_edges : decode 0x0000 = .sys 0x000 ∧ decode 0x00E1 = .sys 0x0E1 ∧
    decode 0x00EF = .sys 0x0EF ∧ decode 0x00ED = .sys 0x0ED ∧ decode 0x0FFF = .sys 0xFFF ∧
    decode 0x01E0 = .cls 0x1 ∧ decode 0x0FE0 = .cls 0xF ∧ decode 0x0AEE = .ret 0xA := by decide

theorem test_decode_flow : decode 0x1ABC = .jp 0xABC ∧ decode 0x2345 = .call 0x345 ∧ decode 0xB210 = .jpV0 0x210 := by
  decide

theorem test_decode_skips : decode 0x3A7F = .seImm 10 0x7F ∧ decode 0x4B80 = .sneImm 11 0x80 ∧
    decode 0x5120 = .seReg 1 2 0 ∧ decode 0x9340 = .sneReg 3 4 0 ∧ decode 0x512F = .seReg 1 2 0xF ∧
    decode 0x9127 = .sneReg 1 2 7 := by decide

theorem test_decode_immediates : decode 0x6C01 = .ldImm 12 0x01 ∧ decode 0x7DFF = .addImm 13 0xFF := by decide

theorem test_decode_family8 : decode 0x8120 = .ldReg 1 2 ∧ decode 0x8121 = .orReg 1 2 ∧ decode 0x8122 = .andReg 1 2 ∧
    decode 0x8123 = .xorReg 1 2 ∧ decode 0x8124 = .addReg 1 2 ∧ decode 0x8125 = .sub 1 2 ∧
    decode 0x8126 = .shr 1 2 ∧ decode 0x8127 = .subn 1 2 ∧ decode 0x812E = .shl 1 2 := by decide

theorem test_decode_family8_fallback : decode 0x8128 = .unmapped8 1 2 0x8 ∧ decode 0x812A = .unmapped8 1 2 0xA ∧
    decode 0x812D = .unmapped8 1 2 0xD ∧ decode 0x812F = .unmapped8 1 2 0xF := by decide

theorem test_decode_index : decode 0xA2F0 = .ldI 0x2F0 ∧ decode 0xC30F = .rnd 3 0x0F ∧
    decode 0xD125 = .drw 1 2 5 := by decide

theorem test_decode_familyE : decode 0xE59E = .skp 5 ∧ decode 0xE5A1 = .sknp 5 ∧ decode 0xE09D = .unmappedE 0 0x9D ∧
    decode 0xE0A2 = .unmappedE 0 0xA2 ∧ decode 0xEFFF = .unmappedE 15 0xFF := by decide

theorem test_decode_familyF : decode 0xF107 = .ldXDt 1 ∧ decode 0xF30A = .ldXK 3 ∧ decode 0xF015 = .ldDtX 0 ∧
    decode 0xF418 = .ldStX 4 ∧ decode 0xF11E = .addI 1 ∧ decode 0xF229 = .ldF 2 ∧ decode 0xF033 = .ldB 0 ∧
    decode 0xF155 = .stRegs 1 ∧ decode 0xF265 = .ldRegs 2 ∧ decode 0xF90A = .ldXK 9 := by decide

theorem test_decode_familyF_fallback : decode 0xF000 = .unmappedF 0 0x00 ∧ decode 0xF006 = .unmappedF 0 0x06 ∧
    decode 0xF075 = .unmappedF 0 0x75 ∧ decode 0xF085 = .unmappedF 0 0x85 ∧ decode 0xFFFF = .unmappedF 15 0xFF := by
  decide

/-- R31, R50: big-endian; a lone byte is no word. -/
theorem test_decode_bytes : decodeBytes [0x12, 0x04, 0x60] = .instr (.jp 0x204) [0x60] ∧
    decodeBytes [0x12] = .rejected .truncated ∧ decodeTableWord 16 0x8124 = some (.addReg 1 2) := by decide

/-- R55: two rows that a word can select together differ in priority. -/
theorem test_rows_unambiguous :
    opcodeTable.Pairwise fun a b =>
      (a.bits ^^^ b.bits) &&& a.mask &&& b.mask ≠ 0 ∨ a.priority ≠ b.priority := by decide

/-! ### Single steps -/

/-- Registers given by number; the others 0. -/
def regs (l : List (RegIx × Byte)) : Vector Byte 16 := l.foldl (fun v p => v.set p.1 p.2) State.reset.v

/-- The reset state with the one-word program `w`. -/
def one (w : Word) (l : List (RegIx × Byte)) : State := { State.reset with prog := [w], v := regs l }

/-- The reset state at address `0x200 + 2k` with `w` there. -/
def at_ (k : Nat) (w : Word) (l : List (RegIx × Byte)) : State :=
  { State.reset with
    pc := BitVec.ofNat 12 (0x200 + 2 * k), prog := List.replicate k 0 ++ [w], v := regs l }

/-- What a step ends in satisfies a check. -/
def ends (r : Result) (check : State → Bool) : Bool :=
  match r with
  | .next t => check t
  | .fault _ => false
  | .refused _ => false

/-- What a step ends in is the given state. -/
def endsAt (r : Result) (t : State) : Bool := ends r (fun u => u == t)

theorem test_F1_1_sys : endsAt (step (one 0x0123 [])) { one 0x0123 [] with pc := 0x202 } = true := by decide

theorem test_F1_2_unmapped8 : endsAt (step (one 0x8128 [])) { one 0x8128 [] with pc := 0x202 } = true := by decide

theorem test_F1_3_jp : endsAt (step (at_ 5 0x1204 [])) { at_ 5 0x1204 [] with pc := 0x204 } = true := by decide

theorem test_F1_5_ret : ends (step { at_ 7 0x00EE [] with sp := 1, stack := State.reset.stack.set 0 0x206 })
    (fun t => t.sp == 0 && t.pc == 0x206) = true := by decide

theorem test_F1_6_underflow : endsAt (step (one 0x00EE []))
    { one 0x00EE [] with engine := .halted .stackUnderflow } = true := by decide

theorem test_F1_7_overflow : endsAt (step { one 0x2300 [] with sp := 16 })
    { one 0x2300 [] with sp := 16, engine := .halted .stackOverflow } = true := by decide

theorem test_F1_8_last_push : ends (step { one 0x2200 [] with sp := 15 })
    (fun t => t.stack[15] == 0x202 && t.sp == 16 && t.pc == 0x200 && t.engine == .ready) = true := by decide

theorem test_F1_10_jpV0_wrap : ends (step (one 0xBFFF [(0, 0xFF)])) (fun t => t.pc == 0x0FE) = true := by decide

theorem test_F1_12_misaligned : endsAt (step { one 0x1201 [] with pc := 0x201 })
    { one 0x1201 [] with pc := 0x201, engine := .halted (.fetchFault .misaligned) } = true := by decide

theorem test_F1_14_out_of_program : endsAt (step { one 0x6001 [] with pc := 0x202 })
    { one 0x6001 [] with pc := 0x202, engine := .halted (.fetchFault .outOfProgram) } = true := by decide

theorem test_F2_1_seImm : ends (step (at_ 4 0x3100 [])) (fun t => t.pc == 0x20C) = true := by decide

theorem test_F2_4_seImm_no_sign : ends (step (one 0x31FF [(1, 1)])) (fun t => t.pc == 0x202) = true := by decide

theorem test_F2_5_sneImm : ends (step (at_ 128 0x4207 [(2, 7)])) (fun t => t.pc == 0x302) = true := by decide

theorem test_F2_8_seReg : ends (step (at_ 8 0x5340 [(3, 9), (4, 8)])) (fun t => t.pc == 0x212) = true := by decide

theorem test_F2_12_seReg_n_ignored : ends (step (one 0x5121 [(1, 4), (2, 4)])) (fun t => t.pc == 0x204) = true := by
  decide

theorem test_F2_10_sneReg : ends (step (at_ 8 0x9340 [(3, 9), (4, 8)])) (fun t => t.pc == 0x214) = true := by decide

/-- F2.15, arithmetic only: the skip wraps at the top of the address space. -/
theorem test_F2_15_skip_wraps :
    ends (exec (.sneReg 1 2 0) { State.reset with pc := 0xFFE, v := regs [(1, 9)] }) (fun t => t.pc == 0x002) = true := by
  decide

theorem test_F3_1_ldImm : ends (step (one 0x6C2A [])) (fun t => t.getV 12 == 0x2A && t.pc == 0x202) = true := by decide

theorem test_F3_2_addImm : ends (step (one 0x7001 [(0, 255), (15, 9)])) (fun t => t.getV 0 == 0 && t.getV 15 == 9) =
    true := by decide

theorem test_F3_5_ldReg : ends (step (one 0x8010 [(1, 0x2A)])) (fun t => t.getV 0 == 0x2A && t.getV 1 == 0x2A) =
    true := by decide

theorem test_F3_6_orReg : ends (step (one 0x8011 [(0, 0xF0), (1, 0x0F), (15, 1)]))
    (fun t => t.getV 0 == 0xFF && t.getV 15 == 1) = true := by decide

theorem test_F3_7_andReg : ends (step (one 0x8012 [(0, 0xF0), (1, 0x3C)])) (fun t => t.getV 0 == 0x30) = true := by
  decide

theorem test_F3_8_xorReg : ends (step (one 0x8013 [(0, 0xF0), (1, 0x3C)])) (fun t => t.getV 0 == 0xCC) = true := by
  decide

theorem test_F3_13_addReg_own_source : ends (step (one 0x8224 [(2, 0x90)]))
    (fun t => t.getV 2 == 0x20 && t.getV 15 == 1) = true := by decide

theorem test_F3_14_addReg_flag_stands : ends (step (one 0x8F14 [(15, 200), (1, 100)])) (fun t => t.getV 15 == 1) =
    true := by decide

theorem test_F3_18_sub_borrow : ends (step (one 0x8015 [(0, 0), (1, 1)]))
    (fun t => t.getV 0 == 255 && t.getV 15 == 0) = true := by decide

theorem test_F3_20_sub_old_flag : ends (step (one 0x80F5 [(0, 10), (15, 1)]))
    (fun t => t.getV 0 == 9 && t.getV 15 == 1) = true := by decide

theorem test_F3_24_shr_y_ignored : ends (step (one 0x8016 [(0, 4), (1, 0xFF)]))
    (fun t => t.getV 0 == 2 && t.getV 15 == 0 && t.getV 1 == 0xFF) = true := by decide

theorem test_F3_26_shr_result_stands : ends (step (one 0x8F06 [(15, 3)])) (fun t => t.getV 15 == 1) = true := by decide

theorem test_F3_28_subn : ends (step (one 0x8017 [(0, 123), (1, 10)]))
    (fun t => t.getV 0 == 143 && t.getV 15 == 0) = true := by decide

theorem test_F3_29_subn_result_stands : ends (step (one 0x8F17 [(15, 3), (1, 5)])) (fun t => t.getV 15 == 2) = true := by
  decide

theorem test_F3_31_shl : ends (step (one 0x800E [(0, 0x80)])) (fun t => t.getV 0 == 0 && t.getV 15 == 1) = true := by
  decide

theorem test_F3_33_shl_result_stands : ends (step (one 0x8F0E [(15, 0x81)])) (fun t => t.getV 15 == 0x02) = true := by
  decide

theorem test_F4_1_ldI : ends (step (one 0xA300 [])) (fun t => t.ireg == 0x300) = true := by decide

theorem test_F4_4_addI_wrap : ends (step { one 0xF01E [(0, 0xFF)] with ireg := 0xF80 })
    (fun t => t.ireg == 0x07F && t.getV 15 == 0) = true := by decide

theorem test_F4_5_ldF : ends (step (one 0xF229 [(2, 0xA)])) (fun t => t.ireg == 0x032) = true := by decide

/-- A state under the alternative `KeyCodePolicy`. -/
def masking (s : State) : State := { s with cfg := { s.cfg with keyCodePolicy := .mask4 } }

/-- F4.6, under `mask4`. -/
theorem test_F4_6_ldF_mask4 : ends (step (masking (one 0xF229 [(2, 0x10)]))) (fun t => t.ireg == 0x000) = true := by
  decide

/-- R4: the defaults, and with them the policy after reset. -/
theorem test_R4_defaults : State.reset.cfg = defaults ∧ defaults.keyCodePolicy = .refuse ∧
    defaults.displayRegionSize = 256 ∧ defaults.maxProgramLen = 3328 ∧ defaults.fontAddr[10] = 0x032 ∧
    defaults.decodeStrict = false ∧ defaults.refuseFlagAlias = false := by decide

theorem test_F4_7_ldB : ends (step { one 0xF033 [(0, 254)] with ireg := 0x300 })
    (fun t => t.mem == [(0x300, 2), (0x301, 5), (0x302, 4)]) = true := by decide

/-- F4.8: the run wraps from `0xFFF` to `0x000`. -/
theorem test_F4_8_ldB_wrap : ends (step { one 0xF033 [(0, 255)] with ireg := 0xFFE })
    (fun t => t.mem == [(0x000, 5), (0xFFE, 2), (0xFFF, 5)]) = true := by decide

theorem test_F4_12_stRegs : ends
    (step { one 0xF155 [(0, 0x8F), (1, 0x85), (2, 0x11)] with ireg := 0x400, mem := [(0x402, 7)] })
    (fun t => t.mem == [(0x400, 0x8F), (0x401, 0x85), (0x402, 7)] && t.ireg == 0x400) = true := by decide

/-- R42 and the canonical form: storing what an unlisted byte reads as removes the entry. -/
theorem test_stRegs_removes_entry : ends (step { one 0xF055 [] with ireg := 0x400, mem := [(0x400, 7), (0x401, 8)] })
    (fun t => t.mem == [(0x401, 8)]) = true := by decide

theorem test_F4_14_ldRegs : ends
    (step { one 0xF265 [(3, 0x77)] with ireg := 0x300, mem := [(0x300, 2), (0x301, 5), (0x302, 4)] })
    (fun t => t.getV 0 == 2 && t.getV 1 == 5 && t.getV 2 == 4 && t.getV 3 == 0x77 && t.ireg == 0x300) = true := by decide

theorem test_F5_1_ldDtX : ends (step (one 0xF015 [(0, 3)])) (fun t => t.dt == 3 && t.st == 0) = true := by decide

theorem test_F5_2_ldXDt : ends (step { one 0xF107 [] with dt := 0x3C }) (fun t => t.getV 1 == 0x3C && t.dt == 0x3C) =
    true := by decide

theorem test_F5_3_ldStX : ends (step (one 0xF418 [(4, 0x10)])) (fun t => t.st == 0x10 && t.dt == 0) = true := by decide

theorem test_F5_4_tick : ends (step { one 0 [] with agenda := [.timerTick], dt := 3, st := 1 })
    (fun t => t.dt == 2 && t.st == 0 && t.pc == 0x200) = true := by decide

theorem test_F5_7_tick_while_waiting : ends
    (step { one 0xF30A [] with agenda := [.timerTick], dt := 5, engine := .awaitingKey })
    (fun t => t.dt == 4 && t.st == 0 && t.engine == .awaitingKey) = true := by decide

theorem test_F5_9_rnd : ends (step { one 0xC30F [] with entropyIn := [0xB7, 0x11] })
    (fun t => t.getV 3 == 0x07 && t.entropyIn == [0x11] && t.calls == [.nextByte]) = true := by decide

/-- F5.10, with no answer on the host's list: the mask 0 gives 0 whatever the free value is. -/
theorem test_F5_10_rnd_mask_zero :
    exec (.rnd 3 0x00) State.reset =
      .next { State.reset with
        v := State.reset.v.set 3 (freeByte 0 &&& 0), pc := 0x202, calls := [.nextByte], freeIx := 1 } := rfl

theorem test_F6_1_cls : endsAt (step (one 0x00E0 []))
    { one 0x00E0 [] with pc := 0x202, calls := [.clearScreen] } = true := by
  decide

theorem test_F6_3_drw : ends
    (step { one 0xD012 [(0, 3), (1, 4)] with
      ireg := 0x300, mem := [(0x300, 0xF0), (0x301, 0x90)], collisionIn := [true] })
    (fun t => t.calls == [.drawSprite 3 4 [0xF0, 0x90]] && t.getV 15 == 1 && t.ireg == 0x300) = true := by decide

theorem test_F6_4_drw_no_rows : ends (step { one 0xD010 [(15, 9)] with collisionIn := [false] })
    (fun t => t.calls == [.drawSprite 0 0 []] && t.getV 15 == 0) = true := by decide

theorem test_F6_7_skp : ends (step { at_ 16 0xE59E [(5, 0xA)] with keyIn := [true] })
    (fun t => t.pc == 0x224 && t.calls == [.isKeyDown 10]) = true := by decide

theorem test_F6_11_skp_mask4 : ends (step (masking { one 0xE59E [(5, 0x10)] with keyIn := [false] }))
    (fun t => t.pc == 0x202 && t.calls == [.isKeyDown 0]) = true := by decide

theorem test_F6_9_sknp : ends (step { at_ 16 0xE5A1 [(5, 0xA)] with keyIn := [true] })
    (fun t => t.pc == 0x222) = true := by decide

theorem test_F6_10_sknp : ends (step { at_ 16 0xE5A1 [(5, 0xA)] with keyIn := [false] })
    (fun t => t.pc == 0x224) = true := by decide

theorem test_F6_12_ldXK : endsAt (step (one 0xF30A []))
    { one 0xF30A [] with engine := .awaitingKey } = true := by decide

theorem test_F6_14_key : ends (step { one 0xF30A [] with engine := .awaitingKey, agenda := [.keyEvent 7] })
    (fun t => t.getV 3 == 7 && t.pc == 0x202 && t.engine == .ready) = true := by decide

theorem test_unmappedE_step : endsAt (step (one 0xE0A2 [])) { one 0xE0A2 [] with pc := 0x202 } = true := by decide

theorem test_unmappedF_step : endsAt (step (one 0xF066 [])) { one 0xF066 [] with pc := 0x202 } = true := by decide

theorem test_F7_1_reset : ends
    (step { one 0 [(0, 0xFF), (15, 0xFF)] with
      ireg := 0x123, pc := 0x456, sp := 7, dt := 9, st := 9, engine := .halted .stackOverflow, agenda := [.reset] })
    (fun t => t.v == State.reset.v && t.ireg == 0 && t.pc == 0x200 && t.sp == 0 && t.dt == 0 && t.st == 0 &&
      t.engine == .ready && t.prog == [0]) = true := by decide

/-- A core to which nothing has been loaded. -/
def unloaded (l : List Transaction) : State := { State.reset with phase := .noProgram, agenda := l }

theorem test_F7_3_load_odd : ends (step (unloaded [.load [1, 2, 3]])) (fun t => t.phase == .loadFailed .oddLength) =
    true := by decide

/-- F7.4, F7.5, F7.7: the bounds at the default parameters. -/
theorem test_F7_4_load_bounds : loadCheck defaults (List.replicate 3330 0) = some .tooLarge ∧
    loadCheck defaults (List.replicate 3328 0) = none ∧
    loadCheck defaults (List.replicate 3331 0) = some .oddLength := by
  simp only [loadCheck, List.length_replicate, -List.reduceReplicate]
  decide

theorem test_load : ends (step (unloaded [.load [0x12, 0x04, 0x60, 0x05]]))
    (fun t => t.prog == [0x1204, 0x6005] && t.phase == .loaded &&
      t.mem == [(0x200, 0x12), (0x201, 0x04), (0x202, 0x60), (0x203, 0x05)]) = true := by decide

/-- The word placed by `withFetchWord` is what the next step runs, from reset and from a halted odd `PC`. -/
theorem test_withFetchWord : ends (step (State.reset.withFetchWord 16 0x6C2A)) (fun t => t.getV 12 == 0x2A) = true ∧
    ends (step (State.withFetchWord { State.reset with pc := 0x301, engine := .halted .stackUnderflow } 16 0x1204))
      (fun t => t.pc == 0x204) = true := by decide

/-- R63, R64: `LD VC, -1` prints the byte `0xFF` signed; `RND V3, 15` prints its mask unsigned. -/
theorem test_listing : (listingLine 0x200 0x6CFF).operands = [['V', 'C'], ['-', '1']] ∧
    (listingLine 0x200 0x6CFF).rawBytes = [['6', 'C'], ['F', 'F']] ∧
    (listingLine 0x200 0xC3FF).operands = [['V', '3'], ['2', '5', '5']] := by decide

/-! ### Witnesses: states and operands that meet the hypotheses of the statements, one for each clause -/

theorem witness_DecodeOfEncode : (Instr.unmappedF 15 0xFF).wellFormed = true := by decide

theorem witness_StepRunsDecodedInstr : ∃ (s : State) (w : Word) (i : Instr), s.atStep ∧ s.engine = .ready ∧
    fetch s.prog s.pc = .word w ∧ decode w = i ∧ (s.cfg.decodeStrict = false ∨ i.canonical = true) ∧
    (s.cfg.refuseFlagAlias = false ∨ flagAliased i = false) :=
  ⟨one 0x1204 [], 0x1204, _, ⟨rfl, .inl rfl⟩, rfl, by decide, rfl, .inl rfl, .inl rfl⟩

/-- The same with both switches on and a `Step` on the agenda. -/
theorem witness_StepRunsDecodedInstr_switches : ∃ (s : State) (w : Word) (i : Instr), s.atStep ∧ s.engine = .ready ∧
    fetch s.prog s.pc = .word w ∧ decode w = i ∧ i.canonical = true ∧ flagAliased i = false ∧
    s.cfg.decodeStrict = true ∧ s.cfg.refuseFlagAlias = true :=
  ⟨{ one 0x8014 [] with
      cfg := { defaults with decodeStrict := true, refuseFlagAlias := true }, agenda := [.step, .reset] },
    0x8014, _, ⟨rfl, .inr ⟨_, rfl⟩⟩, rfl, by decide, rfl, by decide, by decide, rfl, rfl⟩

/-- The odd address `0xFFF`, and an odd one inside the program. -/
theorem witness_StepTakesFetchFault_misaligned : ∃ s t : State,
    (s.atStep ∧ s.engine = .ready ∧ s.pc.toNat % 2 = 1 ∧ s.pc = 0xFFF) ∧
    (t.atStep ∧ t.engine = .ready ∧ t.pc.toNat % 2 = 1 ∧ t.pc.toNat < 0x200 + 2 * t.prog.length) :=
  ⟨{ one 0 [] with pc := 0xFFF }, { one 0 [] with pc := 0x201 },
    ⟨⟨rfl, .inl rfl⟩, rfl, by decide, rfl⟩, ⟨rfl, .inl rfl⟩, rfl, by decide, by decide⟩

/-- `0x1FE`, just below the program, and `0x202`, just past a program of one word. -/
theorem witness_StepTakesFetchFault_outOfProgram : ∃ s t : State,
    (s.atStep ∧ s.engine = .ready ∧ s.pc.toNat % 2 = 0 ∧ s.pc.toNat < 0x200) ∧
    (t.atStep ∧ t.engine = .ready ∧ t.pc.toNat % 2 = 0 ∧ 0x200 + 2 * t.prog.length ≤ t.pc.toNat) :=
  ⟨{ one 0 [] with pc := 0x1FE }, { one 0 [] with pc := 0x202 },
    ⟨⟨rfl, .inl rfl⟩, rfl, by decide, by decide⟩, ⟨rfl, .inl rfl⟩, rfl, by decide, by decide⟩

theorem witness_UnheededTransactions_step : ∃ s t : State,
    (s.atStep ∧ s.engine ≠ .ready) ∧ t.atStep ∧ t.engine ≠ .ready :=
  ⟨{ one 0xF30A [] with engine := .awaitingKey }, { one 0x00EE [] with engine := .halted .stackUnderflow },
    ⟨⟨rfl, .inl rfl⟩, by decide⟩, ⟨rfl, .inl rfl⟩, by decide⟩

theorem witness_UnheededTransactions_key : ∃ (s : State) (k : KeyCode) (rest : List Transaction),
    s.phase = .running ∧ s.agenda = .keyEvent k :: rest ∧ s.engine ≠ .awaitingKey :=
  ⟨{ one 0 [] with agenda := [.keyEvent 15] }, 15, [], rfl, rfl, by decide⟩

theorem witness_CautionSwitches_strict : ∃ (s : State) (w : Word), s.atStep ∧ s.engine = .ready ∧
    fetch s.prog s.pc = .word w ∧ s.cfg.decodeStrict = true ∧ (decode w).canonical = false :=
  ⟨{ one 0x01E0 [] with cfg := { defaults with decodeStrict := true } }, 0x01E0, ⟨rfl, .inl rfl⟩, rfl, by decide, rfl,
    by decide⟩

theorem witness_CautionSwitches_alias : ∃ (s : State) (w : Word), s.atStep ∧ s.engine = .ready ∧
    fetch s.prog s.pc = .word w ∧ s.cfg.decodeStrict = false ∧ s.cfg.refuseFlagAlias = true ∧
    flagAliased (decode w) = true :=
  ⟨{ one 0x8F14 [] with cfg := { defaults with refuseFlagAlias := true } }, 0x8F14, ⟨rfl, .inl rfl⟩, rfl, by decide, rfl,
    rfl, by decide⟩

/-- A running state with a program, waiting at its `Fx0A` inside a call. -/
def waiting : State :=
  { State.reset with
    prog := [0x2204, 0x1202, 0xF30A], pc := 0x204, sp := 1, stack := State.reset.stack.set 0 0x202,
    engine := .awaitingKey, mem := [(0x204, 0xF3), (0x205, 0x0A)] }

theorem waiting_inv : waiting.Inv where
  memWf := by decide
  progFits _ := by unfold State.ProgFits; decide
  stackHoldsReturns _ := by
    intro j hj
    have h0 : j = 0 := Fin.ext (Nat.lt_one_iff.1 hj)
    subst h0
    exact ⟨0, 0x2204, rfl, by decide, by decide⟩
  waitsAtKeyWord _ _ := ⟨0xF30A, by decide, by decide⟩
  haltNamesCause _ := trivial

/-- A running state at the self-jump of the same program. -/
def jumping : State := { waiting with pc := 0x202, engine := .ready, sp := 0 }

theorem jumping_inv : jumping.Inv where
  memWf := by decide
  progFits _ := by unfold State.ProgFits; decide
  stackHoldsReturns _ := by intro j hj; exact absurd hj (Nat.not_lt_zero _)
  waitsAtKeyWord _ h := by cases h
  haltNamesCause _ := trivial

theorem witness_NoTransactionStopsRunningCore : ∃ s : State, s.Inv ∧ s.phase = .running ∧
    (∀ rom rest, s.agenda ≠ .load rom :: rest) ∧ s.cfg.keyCodePolicy = .mask4 ∧ s.cfg.decodeStrict = false ∧
    s.cfg.refuseFlagAlias = false :=
  ⟨masking waiting,
    ⟨waiting_inv.memWf, waiting_inv.progFits, waiting_inv.stackHoldsReturns, waiting_inv.waitsAtKeyWord,
      waiting_inv.haltNamesCause⟩,
    rfl, (fun _ _ h => nomatch h), rfl, rfl, rfl⟩

theorem witness_SysOnlyAdvancesPc : ∃ w : Word, familyOf w = 0 ∧ kkOf w ≠ 0xE0 ∧ kkOf w ≠ 0xEE :=
  ⟨0x00EF, by decide, by decide, by decide⟩

theorem witness_UnmappedOnlyAdvancesPc : (Instr.unmapped8 1 2 0x8).variant = .unmapped ∧
    (Instr.unmappedE 0 0xA2).variant = .unmapped ∧ (Instr.unmappedF 0 0x66).variant = .unmapped := by decide

theorem witness_CallPushes : ∃ s : State, s.sp.val < 16 ∧ s.sp = 15 :=
  ⟨{ State.reset with sp := 15 }, by decide, rfl⟩

theorem witness_RetPops : ∃ (s : State) (j : Fin 16), s.sp.val = j.val + 1 ∧ j = 15 :=
  ⟨{ State.reset with sp := 16 }, 15, rfl, rfl⟩

theorem witness_StackFaults : ∃ s t : State, s.sp.val = 16 ∧ t.sp.val = 0 :=
  ⟨{ State.reset with sp := 16 }, State.reset, rfl, rfl⟩

theorem witness_SkipOnImmediate : familyOf 0x3A7F = 0x3 ∧ familyOf 0x4B80 = 0x4 := by decide

theorem witness_LoadImmediate : familyOf 0x6C01 = 0x6 := by decide

/-- `V[x] = 15`, the last digit; `V[x] = 16` under `mask4`; `V[x] = 16` under `refuse`. The same states serve the key
skips. -/
theorem witness_KeyCodes : ∃ s t u : State,
    ((15 : Fin 16).val = (s.getV 5).toNat % 16 ∧ (s.getV 5).toNat ≤ 15) ∧
    ((0 : Fin 16).val = (t.getV 5).toNat % 16 ∧ t.cfg.keyCodePolicy = .mask4 ∧ (t.getV 5).toNat > 15) ∧
    (0 : Fin 16).val = (u.getV 5).toNat % 16 ∧ (u.getV 5).toNat > 15 ∧ u.cfg.keyCodePolicy = .refuse :=
  ⟨one 0 [(5, 15)], masking (one 0 [(5, 16)]), one 0 [(5, 16)],
    by decide, by decide, by decide⟩

/-- The stores' premise, with a run that wraps at `0xFFF` over listed bytes. -/
theorem witness_Stores : ∃ s : State, s.mem.wf = true ∧ s.ireg = 0xFFF ∧ s.mem ≠ [] :=
  ⟨{ State.reset with ireg := 0xFFF, mem := [(0, 7), (0xFFF, 9)] }, by decide, rfl, by decide⟩

theorem witness_KeyWaitCompletes : ∃ (s : State) (w : Word) (k : KeyCode) (rest : List Transaction),
    s.phase = .running ∧ s.engine = .awaitingKey ∧ fetch s.prog s.pc = .word w ∧ decode w = .ldXK 3 ∧
    s.agenda = .keyEvent k :: rest :=
  ⟨{ waiting with agenda := [.keyEvent 15] }, 0xF30A, 15, [], rfl, rfl, by decide, by decide, rfl⟩

theorem witness_OtherVariantsAdvance : ∃ (i : Instr) (s t : State), exec i s = .next t ∧
    i.variant ∉ [.jp, .call, .ret, .jpV0, .seImm, .sneImm, .seReg, .sneReg, .skp, .sknp, .ldXK] :=
  ⟨.addReg 1 2, State.reset, _, rfl, by decide⟩

theorem witness_RegistersOutside : ∃ (i : Instr) (s t : State) (r : RegIx), exec i s = .next t ∧
    mayWriteReg i r = false :=
  ⟨.ldRegs 3, State.reset, _, 4, rfl, by decide⟩

theorem witness_OnlyListedVariantsWriteIAndTimers : ∃ (i : Instr) (s t : State), exec i s = .next t ∧
    i.variant ∉ [.ldI, .addI, .ldF] ∧ i.variant ≠ .ldDtX ∧ i.variant ≠ .ldStX :=
  ⟨.stRegs 15, State.reset, _, rfl, by decide, by decide, by decide⟩

theorem witness_OnlyListedVariantsWriteMemAndStack : ∃ (i j : Instr) (s t u : State),
    (exec i s = .next t ∧ i.variant ∉ [.ldB, .stRegs] ∧ i.variant ∉ [.call, .ret]) ∧
    exec j s = .next u ∧ j.variant = .ret ∧ j.variant ≠ .call :=
  ⟨.ldRegs 15, .ret 0, State.reset, _, _, ⟨rfl, by decide, by decide⟩, rfl, rfl, by decide⟩

/-- One next state for each branch: the wait, both stack faults, and the rest. -/
theorem witness_EngineAfterInstr : ∃ t u v w : State,
    exec (.ldXK 3) State.reset = .next t ∧ exec (.call 0x300) { State.reset with sp := 16 } = .next u ∧
    exec (.ret 0) State.reset = .next v ∧ exec (.cls 0) State.reset = .next w :=
  ⟨_, _, _, _, rfl, rfl, rfl, rfl⟩

theorem witness_CapabilityCalls : ∃ t u v w x : State,
    exec (.cls 0) State.reset = .next t ∧ exec (.drw 1 2 5) State.reset = .next u ∧
    exec (.skp 5) State.reset = .next v ∧ exec (.sknp 5) State.reset = .next w ∧
    exec (.rnd 3 0xFF) State.reset = .next x :=
  ⟨_, _, _, _, _, rfl, rfl, rfl, rfl, rfl⟩

theorem witness_ProgramNeverChanges : ∃ s t : State, s.phase = .running ∧ step s = .next t :=
  ⟨one 0xF155 [], _, rfl, rfl⟩

theorem witness_MemSeenOnly : ∃ (i : Instr) (s t : State), i.variant ∉ [.drw, .ldRegs] ∧ exec i s = .next t :=
  ⟨.stRegs 3, State.reset, _, by decide, rfl⟩

theorem witness_TickCommutes : ∃ (i : Instr) (s t : State), i.variant ∉ [.ldXDt, .ldDtX, .ldStX] ∧
    exec i s = .next t ∧ s.dt = 3 :=
  ⟨.skp 5, { State.reset with dt := 3 }, _, by decide, rfl, rfl⟩

theorem witness_TicksCountDown : ∃ (s : State) (rest : List Transaction), s.phase = .running ∧
    s.agenda = List.replicate 3 .timerTick ++ rest :=
  ⟨{ waiting with dt := 2, st := 9, agenda := [.timerTick, .timerTick, .timerTick, .step] }, [.step], rfl, rfl⟩

theorem witness_ResetRestores : ∃ (s t : State) (rest : List Transaction),
    ((s.phase = .running ∨ s.phase = .loaded) ∧ s.agenda = .reset :: rest) ∧
    (t.phase = .running ∨ t.phase = .loaded) ∧ t.agenda = .reset :: rest :=
  ⟨{ waiting with agenda := [.reset] }, { State.reset with phase := .loaded, agenda := [.reset] }, [],
    ⟨.inl rfl, rfl⟩, .inr rfl, rfl⟩

/-- A core whose display region leaves room for 2 bytes. -/
def narrow (rom : List Byte) (rest : List Transaction) : State :=
  { unloaded (.load rom :: rest) with cfg := { defaults with displayRegionSize := 3582 } }

/-- Odd, with a length below and one above the bound; even and one word too long. -/
theorem witness_LoadErrors : ∃ (s t u : State) (a b c : List Byte),
    (s.phase = .noProgram ∧ s.agenda = [.load a] ∧ a.length % 2 = 1 ∧
      a.length ≤ 4096 - 512 - s.cfg.displayRegionSize) ∧
    (t.phase = .noProgram ∧ t.agenda = [.load b] ∧ b.length % 2 = 1 ∧
      b.length > 4096 - 512 - t.cfg.displayRegionSize) ∧
    u.phase = .noProgram ∧ u.agenda = [.load c] ∧ c.length % 2 = 0 ∧ c.length > 4096 - 512 - u.cfg.displayRegionSize :=
  ⟨narrow [1] [], narrow [1, 2, 3] [], narrow [1, 2, 3, 4] [], [1], [1, 2, 3], [1, 2, 3, 4],
    ⟨rfl, rfl, rfl, by decide⟩, ⟨rfl, rfl, rfl, by decide⟩, rfl, rfl, rfl, by decide⟩

/-- A rom that fills its region exactly, with a fetched word and a byte on each side of it. -/
theorem witness_LoadThenReset : ∃ (s : State) (rom : List Byte) (rest : List Transaction), s.phase = .noProgram ∧
    s.mem.wf = true ∧ s.agenda = .load rom :: .reset :: rest ∧ rom.length % 2 = 0 ∧
    rom.length ≤ 4096 - 512 - s.cfg.displayRegionSize ∧ rom[2 * 0]? = some 0x12 ∧ rom[2 * 0 + 1]? = some 0x04 ∧
    (0x1FF : Addr).toNat < 0x200 ∧ 0x200 + rom.length ≤ (0x202 : Addr).toNat :=
  ⟨{ narrow [0x12, 0x04] [.reset] with mem := [(0x1FF, 1), (0x202, 2)] }, [0x12, 0x04], [], rfl, by decide, rfl, rfl,
    by decide, rfl, rfl, by decide, by decide⟩

theorem witness_LaunchOrder : ∃ s t u v : State,
    (s.agenda = [.step] ∧ s.phase = .noProgram) ∧
    (t.agenda = [.load []] ∧ t.phase = .loadFailed .oddLength) ∧
    (u.agenda = [.timerTick] ∧ u.phase = .loaded) ∧
    v.agenda = [.load []] ∧ (v.phase = .loaded ∨ v.phase = .running) :=
  ⟨unloaded [.step], { unloaded [.load []] with phase := .loadFailed .oddLength },
    { unloaded [.timerTick] with phase := .loaded }, { State.reset with agenda := [.load []] },
    ⟨rfl, rfl⟩, ⟨rfl, rfl⟩, ⟨rfl, rfl⟩, rfl, .inr rfl⟩

theorem witness_StepKeepsInv : ∃ s t : State, s.Inv ∧ step s = .next t :=
  ⟨jumping, _, jumping_inv, rfl⟩

theorem witness_EvenTargets : ∃ s t : State, s.Inv ∧ s.phase = .running ∧ evenTargets s.prog = true ∧
    s.pc.toNat % 2 = 0 ∧ step s = .next t :=
  ⟨jumping, _, jumping_inv, rfl, by decide, by decide, rfl⟩

theorem witness_HaltedIsAbsorbing : ∃ (n : Nat) (s t : State) (e : ExecFault), s.phase = .running ∧
    s.engine = .halted e ∧ noReset s.agenda ∧ runFor n s = .next t ∧ n = 3 :=
  ⟨3, { one 0x00EE [] with engine := .halted .stackUnderflow, agenda := [.step, .timerTick, .keyEvent 7] }, _, _, rfl,
    rfl, by unfold noReset; decide, rfl, rfl⟩

theorem witness_KeyWaitOutlasts : ∃ s : State, s.phase = .running ∧ s.engine = .awaitingKey ∧
    onlyStepsAndTicks s.agenda ∧ s.agenda = [.step, .timerTick] :=
  ⟨{ waiting with agenda := [.step, .timerTick] }, rfl, rfl, by unfold onlyStepsAndTicks; decide, rfl⟩

/-- A key wait with both timers running, under ticks without end. -/
def tickedWait : Nat → State
  | 0 => { waiting with dt := 2, st := 1 }
  | 1 => { waiting with dt := 1 }
  | _ + 2 => waiting

theorem tickedWait_run : HostRun (fun _ => .timerTick) tickedWait
  | 0 => rfl
  | 1 => rfl
  | _ + 2 => rfl

theorem tickedWait_fetch (m : Nat) : fetch (tickedWait m).prog (tickedWait m).pc = .word 0xF30A := by
  have hw : fetch waiting.prog waiting.pc = .word 0xF30A := by decide
  match m with
  | 0 => exact hw
  | 1 => exact hw
  | _ + 2 => exact hw

theorem witness_FairHost_timers : ∃ (h : Schedule) (σ : Nat → State), HostRun h σ ∧ (σ 0).phase = .running ∧
    ticksWeaklyFair h ∧ neverAt .ldDtX σ 0 ∧ neverAt .ldStX σ 0 ∧ (σ 0).dt = 2 ∧ (σ 0).st = 1 := by
  refine ⟨_, tickedWait, tickedWait_run, rfl, fun n => ⟨n, Nat.le_refl n, rfl⟩, ?_, ?_, rfl, rfl⟩
  all_goals
    intro m w _ hw
    rw [tickedWait_fetch m] at hw
    injection hw with hw
    subst hw
    decide

/-- The wait of `waiting`, ended by the first transaction. -/
def keyedWait : Nat → State
  | 0 => waiting
  | _ + 1 => { waiting with v := regs [(3, 7)], pc := 0x206, engine := .ready }

/-- A key, then ticks without end. -/
def keyThenTicks : Schedule
  | 0 => .keyEvent 7
  | _ + 1 => .timerTick

theorem witness_FairHost_key : ∃ (h : Schedule) (σ : Nat → State), HostRun h σ ∧ (σ 0).phase = .running ∧
    (σ 0).engine = .awaitingKey ∧ keyEventComes h 0 :=
  ⟨keyThenTicks, keyedWait, fun n => match n with | 0 => rfl | _ + 1 => rfl, rfl, rfl, 0, 7, Nat.le_refl 0, rfl⟩

theorem witness_TerminalStateStays : ∃ s : State, s.phase = .running ∧ s.terminal = true ∧
    onlyStepsAndTicks s.agenda ∧ s.agenda = [.timerTick] :=
  ⟨{ one 0x1200 [] with agenda := [.timerTick] }, rfl, by decide, by unfold onlyStepsAndTicks; decide, rfl⟩

theorem witness_MemoriesThatReadAlike : ∃ m m' : Memory, m.wf = true ∧ m'.wf = true ∧
    (∀ a : Addr, m.read a = m'.read a) ∧ m ≠ [] :=
  ⟨[(0x300, 1)], [(0x300, 1)], by decide, by decide, fun _ => rfl, by decide⟩

theorem witness_ListingCursor : ([0x6005, 0x7003] : List Word)[1]? = some 0x7003 := rfl

end Sys2Proof.Tests
end

/-! ## Proofs: byte sequences as words (R31, R50) -/

namespace Sys2Proof

/-- The word of two bytes as the number R31 writes: the sum is below `2^16`, so nothing of it is cut off. -/
theorem wordOfBytes_eq_ofNat (l r : Byte) : wordOfBytes l r = BitVec.ofNat 16 (l.toNat * 256 + r.toNat) := by
  rw [← toNat_wordOfBytes, BitVec.ofNat_toNat, BitVec.setWidth_eq]

/-- Settles O5: the decoder joins the two bytes into one word, and that word is the number `l*256 + r`. -/
theorem bytesDecodeBigEndian : Obligations.BytesDecodeBigEndian := by
  unfold Obligations.BytesDecodeBigEndian
  intro l r rest
  rw [decodeBytes, wordOfBytes_eq_ofNat]

end Sys2Proof

/-! ## Proofs: the family of a decoded word (R53, R54) -/

namespace Sys2Proof

theorem familyOf_encode_decode0 (w : Word) : familyOf (encode (decode0 w)) = 0x0 := by
  unfold decode0
  split
  case isTrue => exact familyOf_wordXKK ..
  case isFalse =>
    split
    case isTrue => exact familyOf_wordXKK ..
    case isFalse => exact familyOf_wordNNN ..

theorem familyOf_encode_decode8 (w : Word) : familyOf (encode (decode8 w)) = 0x8 := by
  unfold decode8
  split <;> exact familyOf_wordXYN ..

theorem familyOf_encode_decodeE (w : Word) : familyOf (encode (decodeE w)) = 0xE := by
  unfold decodeE
  split
  case isTrue => exact familyOf_wordXKK ..
  case isFalse => split <;> exact familyOf_wordXKK ..

theorem familyOf_encode_decodeF (w : Word) : familyOf (encode (decodeF w)) = 0xF := by
  unfold decodeF
  split <;> exact familyOf_wordXKK ..

/-- The decoder never leaves the family: the family of a word can be read off its decoding. -/
theorem familyOf_encode_decode (w : Word) : familyOf (encode (decode w)) = familyOf w := by
  rcases familyOf_cases w with h | h | h | h | h | h | h | h | h | h | h | h | h | h | h | h
  · rw [decode_family0 w h, familyOf_encode_decode0, h]
  · rw [decode_family1 w h, encode, familyOf_wordNNN, h]
  · rw [decode_family2 w h, encode, familyOf_wordNNN, h]
  · rw [decode_family3 w h, encode, familyOf_wordXKK, h]
  · rw [decode_family4 w h, encode, familyOf_wordXKK, h]
  · rw [decode_family5 w h, encode, familyOf_wordXYN, h]
  · rw [decode_family6 w h, encode, familyOf_wordXKK, h]
  · rw [decode_family7 w h, encode, familyOf_wordXKK, h]
  · rw [decode_family8 w h, familyOf_encode_decode8, h]
  · rw [decode_family9 w h, encode, familyOf_wordXYN, h]
  · rw [decode_familyA w h, encode, familyOf_wordNNN, h]
  · rw [decode_familyB w h, encode, familyOf_wordNNN, h]
  · rw [decode_familyC w h, encode, familyOf_wordXKK, h]
  · rw [decode_familyD w h, encode, familyOf_wordXYN, h]
  · rw [decode_familyE w h, familyOf_encode_decodeE, h]
  · rw [decode_familyF w h, familyOf_encode_decodeF, h]

/-- When a variant is encoded in family `f` only and family `f` decodes to that variant only, its words are exactly
those of family `f`. -/
theorem variant_decode_iff_familyOf {v : Variant} {f : Nibble}
    (encoded : ∀ i : Instr, i.variant = v → familyOf (encode i) = f)
    (decoded : ∀ w : Word, familyOf w = f → (decode w).variant = v) (w : Word) :
    (decode w).variant = v ↔ familyOf w = f :=
  ⟨fun h => (familyOf_encode_decode w).symm.trans (encoded _ h), decoded w⟩

end Sys2Proof

/-! ## Proofs: skips on an immediate (R80, R81) -/

namespace Sys2Proof

theorem familyOf_encode_of_variant_seImm (i : Instr) (h : i.variant = .seImm) : familyOf (encode i) = 0x3 := by
  cases i with
  | seImm x kk => exact familyOf_wordXKK ..
  | _ => cases h

theorem familyOf_encode_of_variant_sneImm (i : Instr) (h : i.variant = .sneImm) : familyOf (encode i) = 0x4 := by
  cases i with
  | sneImm x kk => exact familyOf_wordXKK ..
  | _ => cases h

theorem variant_decode_seImm_iff (w : Word) : (decode w).variant = .seImm ↔ familyOf w = 0x3 :=
  variant_decode_iff_familyOf familyOf_encode_of_variant_seImm
    (fun w h => congrArg Instr.variant (decode_family3 w h)) w

theorem variant_decode_sneImm_iff (w : Word) : (decode w).variant = .sneImm ↔ familyOf w = 0x4 :=
  variant_decode_iff_familyOf familyOf_encode_of_variant_sneImm
    (fun w h => congrArg Instr.variant (decode_family4 w h)) w

open Machine

theorem exec_seImm (x : RegIx) (kk : Byte) (s : State) :
    exec (.seImm x kk) s = .next { s with pc := if s.getV x = kk then s.pcPlus 4 else s.pcPlus 2 } := by
  have skips : exec (.seImm x kk) s = .next (s.skipIf (s.getV x == kk)) := rfl
  simp only [skips, State.skipIf_eq, beq_iff_eq]

theorem exec_sneImm (x : RegIx) (kk : Byte) (s : State) :
    exec (.sneImm x kk) s = .next { s with pc := if s.getV x ≠ kk then s.pcPlus 4 else s.pcPlus 2 } := by
  have skips : exec (.sneImm x kk) s = .next (s.skipIf (s.getV x != kk)) := rfl
  simp only [skips, State.skipIf_eq, bne_iff_ne]

/-- Settles O18: the decoder keeps the family, each of the two variants is encoded in one family only, and both
instructions are a `skipIf`, which writes `PC` only. -/
theorem skipOnImmediate : Obligations.SkipOnImmediate := by
  unfold Obligations.SkipOnImmediate
  exact ⟨variant_decode_seImm_iff, variant_decode_sneImm_iff, decode_family3, decode_family4,
    fun x kk s => ⟨exec_seImm x kk s, exec_sneImm x kk s⟩⟩

end Sys2Proof

/-! ## Proofs: register load of an immediate (R91) -/

namespace Sys2Proof

theorem familyOf_encode_of_variant_ldImm (i : Instr) (h : i.variant = .ldImm) : familyOf (encode i) = 0x6 := by
  cases i with
  | ldImm x kk => exact familyOf_wordXKK ..
  | _ => cases h

theorem variant_decode_ldImm_iff (w : Word) : (decode w).variant = .ldImm ↔ familyOf w = 0x6 :=
  variant_decode_iff_familyOf familyOf_encode_of_variant_ldImm
    (fun w h => congrArg Instr.variant (decode_family6 w h)) w

open Machine

theorem exec_ldImm (x : RegIx) (kk : Byte) (s : State) :
    exec (.ldImm x kk) s = .next { s with v := (s.setV x kk).v, pc := s.pcPlus 2 } := by
  have writes : exec (.ldImm x kk) s = .next (s.setV x kk).advance := rfl
  rw [writes, State.setV_advance_eq]

/-- Settles O20: the decoder keeps the family, `LD Vx, kk` is encoded in family 6 only, and the instruction is one
`setV` and an `advance`; `VF` is a register like the others (R91). -/
theorem loadImmediate : Obligations.LoadImmediate := by
  unfold Obligations.LoadImmediate
  exact ⟨variant_decode_ldImm_iff, decode_family6,
    fun x kk s => ⟨(s.setV x kk).v, exec_ldImm x kk s, fun r => s.getV_setV x r kk⟩⟩

end Sys2Proof

/-! ## Proofs: the sub-selectors of the dispatching families (R53, R56) -/

namespace Sys2Proof

theorem isSub0_iff (kk : Byte) : isSub0 kk = true ↔ kk = 0xE0 ∨ kk = 0xEE := by
  simp [isSub0]

theorem isSub8_iff (n : Nibble) :
    isSub8 n = true ↔ n.toNat ∈ [0x0, 0x1, 0x2, 0x3, 0x4, 0x5, 0x6, 0x7, 0xE] := by
  revert n
  decide

theorem isSubE_iff (kk : Byte) : isSubE kk = true ↔ kk = 0x9E ∨ kk = 0xA1 := by
  simp [isSubE]

theorem isSubF_iff (kk : Byte) :
    isSubF kk = true ↔ kk.toNat ∈ [0x07, 0x0A, 0x15, 0x18, 0x1E, 0x29, 0x33, 0x55, 0x65] := by
  simp [isSubF, ← BitVec.toNat_inj, or_assoc]

/-! The fallback of a dispatching family is taken by every other sub-selector. -/

theorem decode0_of_not_isSub0 (w : Word) (h : isSub0 (kkOf w) = false) : decode0 w = .sys (nnnOf w) := by
  obtain ⟨notCls, notRet⟩ := not_or.1 (mt (isSub0_iff _).2 (Bool.eq_false_iff.1 h))
  rw [decode0, if_neg notCls, if_neg notRet]

theorem decode8_of_not_isSub8 (w : Word) (h : isSub8 (nOf w) = false) :
    decode8 w = .unmapped8 (xOf w) (yOf w) (nOf w) := by
  have none := mt (isSub8_iff _).2 (Bool.eq_false_iff.1 h)
  unfold decode8
  split
  case h_10 => rfl
  all_goals rename_i hn; simp [hn] at none

theorem decodeE_of_not_isSubE (w : Word) (h : isSubE (kkOf w) = false) : decodeE w = .unmappedE (xOf w) (kkOf w) := by
  obtain ⟨notSkp, notSknp⟩ := not_or.1 (mt (isSubE_iff _).2 (Bool.eq_false_iff.1 h))
  rw [decodeE, if_neg notSkp, if_neg notSknp]

theorem decodeF_of_not_isSubF (w : Word) (h : isSubF (kkOf w) = false) : decodeF w = .unmappedF (xOf w) (kkOf w) := by
  have none := mt (isSubF_iff _).2 (Bool.eq_false_iff.1 h)
  unfold decodeF
  split
  case h_10 => rfl
  all_goals rename_i hk; simp [hk] at none

/-! And only by those: what a dispatching family decodes to is well formed. -/

theorem wellFormed_decode0 (w : Word) : (decode0 w).wellFormed = true := by
  have byte : (nnnOf w).extractLsb' 0 8 = kkOf w := by
    apply BitVec.eq_of_toNat_eq
    simp only [BitVec.extractLsb'_toNat, toNat_nnnOf, toNat_kkOf, Nat.shiftRight_zero]
    omega
  unfold decode0
  split
  · rfl
  split
  · rfl
  rename_i notCls notRet
  simpa [Instr.wellFormed, byte] using mt (isSub0_iff _).1 (not_or.2 ⟨notCls, notRet⟩)

theorem wellFormed_decode8 (w : Word) : (decode8 w).wellFormed = true := by
  unfold decode8
  split
  case h_10 =>
    have none : ¬ isSub8 (nOf w) = true := by
      simp only [isSub8_iff, List.mem_cons, List.not_mem_nil, or_false, not_or]
      and_intros <;> assumption
    simpa [Instr.wellFormed] using none
  all_goals rfl

theorem wellFormed_decodeE (w : Word) : (decodeE w).wellFormed = true := by
  unfold decodeE
  split
  · rfl
  split
  · rfl
  rename_i notSkp notSknp
  simpa [Instr.wellFormed] using mt (isSubE_iff _).1 (not_or.2 ⟨notSkp, notSknp⟩)

theorem wellFormed_decodeF (w : Word) : (decodeF w).wellFormed = true := by
  unfold decodeF
  split
  case h_10 =>
    have none : ¬ isSubF (kkOf w) = true := by
      simp only [isSubF_iff, List.mem_cons, List.not_mem_nil, or_false, not_or]
      and_intros <;> assumption
    simpa [Instr.wellFormed] using none
  all_goals rfl

end Sys2Proof

/-! ## Proofs: the decoder undoes the encoder (R51, R53, R55) -/

namespace Sys2Proof

/-- A family without sub-selectors reads its operands off the word; a dispatching family finds the sub-selector the
encoder wrote, or, for a well-formed fallback, none. -/
theorem decode_encode (i : Instr) (h : i.wellFormed = true) : decode (encode i) = i := by
  cases i
  case sys nnn =>
    have none : isSub0 (kkOf (wordNNN 0x0 nnn)) = false := by simpa [Instr.wellFormed] using h
    rw [encode, decode_family0 _ (familyOf_wordNNN ..), decode0_of_not_isSub0 _ none, nnnOf_wordNNN]
  case unmapped8 x y n =>
    have none : isSub8 (nOf (wordXYN 0x8 (regBits x) (regBits y) n)) = false := by simpa [Instr.wellFormed] using h
    rw [encode, decode_family8 _ (familyOf_wordXYN ..), decode8_of_not_isSub8 _ none, xOf_wordXYN, yOf_wordXYN,
      nOf_wordXYN]
  case unmappedE x kk =>
    have none : isSubE (kkOf (wordXKK 0xE (regBits x) kk)) = false := by simpa [Instr.wellFormed] using h
    rw [encode, decode_familyE _ (familyOf_wordXKK ..), decodeE_of_not_isSubE _ none, xOf_wordXKK, kkOf_wordXKK]
  case unmappedF x kk =>
    have none : isSubF (kkOf (wordXKK 0xF (regBits x) kk)) = false := by simpa [Instr.wellFormed] using h
    rw [encode, decode_familyF _ (familyOf_wordXKK ..), decodeF_of_not_isSubF _ none, xOf_wordXKK, kkOf_wordXKK]
  case jp nnn => rw [encode, decode_family1 _ (familyOf_wordNNN ..), nnnOf_wordNNN]
  case call nnn => rw [encode, decode_family2 _ (familyOf_wordNNN ..), nnnOf_wordNNN]
  case seImm x kk => rw [encode, decode_family3 _ (familyOf_wordXKK ..), xOf_wordXKK, kkOf_wordXKK]
  case sneImm x kk => rw [encode, decode_family4 _ (familyOf_wordXKK ..), xOf_wordXKK, kkOf_wordXKK]
  case seReg x y n => rw [encode, decode_family5 _ (familyOf_wordXYN ..), xOf_wordXYN, yOf_wordXYN, nOf_wordXYN]
  case ldImm x kk => rw [encode, decode_family6 _ (familyOf_wordXKK ..), xOf_wordXKK, kkOf_wordXKK]
  case addImm x kk => rw [encode, decode_family7 _ (familyOf_wordXKK ..), xOf_wordXKK, kkOf_wordXKK]
  case sneReg x y n => rw [encode, decode_family9 _ (familyOf_wordXYN ..), xOf_wordXYN, yOf_wordXYN, nOf_wordXYN]
  case ldI nnn => rw [encode, decode_familyA _ (familyOf_wordNNN ..), nnnOf_wordNNN]
  case jpV0 nnn => rw [encode, decode_familyB _ (familyOf_wordNNN ..), nnnOf_wordNNN]
  case rnd x kk => rw [encode, decode_familyC _ (familyOf_wordXKK ..), xOf_wordXKK, kkOf_wordXKK]
  case drw x y n => rw [encode, decode_familyD _ (familyOf_wordXYN ..), xOf_wordXYN, yOf_wordXYN, nOf_wordXYN]
  case cls x | ret x =>
    rw [encode, decode_family0 _ (familyOf_wordXKK ..)]
    simp [decode0]
  case ldReg | orReg | andReg | xorReg | addReg | sub | shr | subn | shl =>
    rw [encode, decode_family8 _ (familyOf_wordXYN ..)]
    simp [decode8]
  case skp x | sknp x =>
    rw [encode, decode_familyE _ (familyOf_wordXKK ..)]
    simp [decodeE]
  case ldXDt | ldXK | ldDtX | ldStX | addI | ldF | ldB | stRegs | ldRegs =>
    rw [encode, decode_familyF _ (familyOf_wordXKK ..)]
    simp [decodeF]

/-- Settles O1: by the constructors of the instruction. -/
theorem decodeOfEncodeGivesInstrBack : Obligations.DecodeOfEncodeGivesInstrBack := decode_encode

end Sys2Proof

/-! ## Proofs: the encoder undoes the decoder (R52) -/

namespace Sys2Proof

theorem wordXKK_of_fields {w : Word} {f : Nibble} {kk : Byte} (hf : familyOf w = f) (hk : kkOf w = kk) :
    wordXKK f (xBits w) kk = w := by
  rw [← hf, ← hk, wordXKK_fields]

theorem wordXYN_of_fields {w : Word} {f n : Nibble} (hf : familyOf w = f) (hn : nOf w = n) :
    wordXYN f (regBits (xOf w)) (regBits (yOf w)) n = w := by
  rw [← hf, ← hn, regBits_xOf, wordXYN_fields]

theorem wordNNN_of_fields {w : Word} {f : Nibble} (hf : familyOf w = f) : wordNNN f (nnnOf w) = w := by
  rw [← hf, wordNNN_fields]

theorem encode_decode0 (w : Word) (hf : familyOf w = 0x0) : encode (decode0 w) = w := by
  unfold decode0
  split
  case isTrue isCls => exact wordXKK_of_fields hf isCls
  case isFalse =>
    split
    case isTrue isRet => exact wordXKK_of_fields hf isRet
    case isFalse => exact wordNNN_of_fields hf

theorem encode_decode8 (w : Word) (hf : familyOf w = 0x8) : encode (decode8 w) = w := by
  unfold decode8
  split
  case h_10 => exact wordXYN_of_fields hf rfl
  all_goals rename_i hn; exact wordXYN_of_fields hf (BitVec.eq_of_toNat_eq hn)

theorem encode_decodeE (w : Word) (hf : familyOf w = 0xE) : encode (decodeE w) = w := by
  unfold decodeE
  split
  case isTrue isSkp => exact wordXKK_of_fields hf isSkp
  case isFalse =>
    split
    case isTrue isSknp => exact wordXKK_of_fields hf isSknp
    case isFalse => exact wordXKK_of_fields hf rfl

theorem encode_decodeF (w : Word) (hf : familyOf w = 0xF) : encode (decodeF w) = w := by
  unfold decodeF
  split
  case h_10 => exact wordXKK_of_fields hf rfl
  all_goals rename_i hk; exact wordXKK_of_fields hf (BitVec.eq_of_toNat_eq hk)

theorem wellFormed_decode (w : Word) : (decode w).wellFormed = true := by
  rcases familyOf_cases w with h | h | h | h | h | h | h | h | h | h | h | h | h | h | h | h
  · rw [decode_family0 w h, wellFormed_decode0]
  · rw [decode_family1 w h]; rfl
  · rw [decode_family2 w h]; rfl
  · rw [decode_family3 w h]; rfl
  · rw [decode_family4 w h]; rfl
  · rw [decode_family5 w h]; rfl
  · rw [decode_family6 w h]; rfl
  · rw [decode_family7 w h]; rfl
  · rw [decode_family8 w h, wellFormed_decode8]
  · rw [decode_family9 w h]; rfl
  · rw [decode_familyA w h]; rfl
  · rw [decode_familyB w h]; rfl
  · rw [decode_familyC w h]; rfl
  · rw [decode_familyD w h]; rfl
  · rw [decode_familyE w h, wellFormed_decodeE]
  · rw [decode_familyF w h, wellFormed_decodeF]

theorem encode_decode (w : Word) : encode (decode w) = w := by
  rcases familyOf_cases w with h | h | h | h | h | h | h | h | h | h | h | h | h | h | h | h
  · rw [decode_family0 w h, encode_decode0 w h]
  · rw [decode_family1 w h]; exact wordNNN_of_fields h
  · rw [decode_family2 w h]; exact wordNNN_of_fields h
  · rw [decode_family3 w h]; exact wordXKK_of_fields h rfl
  · rw [decode_family4 w h]; exact wordXKK_of_fields h rfl
  · rw [decode_family5 w h]; exact wordXYN_of_fields h rfl
  · rw [decode_family6 w h]; exact wordXKK_of_fields h rfl
  · rw [decode_family7 w h]; exact wordXKK_of_fields h rfl
  · rw [decode_family8 w h, encode_decode8 w h]
  · rw [decode_family9 w h]; exact wordXYN_of_fields h rfl
  · rw [decode_familyA w h]; exact wordNNN_of_fields h
  · rw [decode_familyB w h]; exact wordNNN_of_fields h
  · rw [decode_familyC w h]; exact wordXKK_of_fields h rfl
  · rw [decode_familyD w h]; exact wordXYN_of_fields h rfl
  · rw [decode_familyE w h, encode_decodeE w h]
  · rw [decode_familyF w h, encode_decodeF w h]

/-- Settles O2: by the family of the word, and in the dispatching families by the sub-selector. -/
theorem encodeOfDecodeGivesWordBack : Obligations.EncodeOfDecodeGivesWordBack :=
  fun w => ⟨wellFormed_decode w, encode_decode w⟩

end Sys2Proof

/-! ## Proofs: the opcode map as data (R55, R56) -/

namespace Sys2Proof

theorem nOf_eq_of_kkOf_eq {w u : Word} (h : kkOf w = kkOf u) : nOf w = nOf u := by
  have h' := congrArg BitVec.toNat h
  apply BitVec.eq_of_toNat_eq
  rw [toNat_kkOf, toNat_kkOf] at h'
  rw [toNat_nOf, toNat_nOf]
  omega

theorem variant_decode0_congr {w u : Word} (h : kkOf w = kkOf u) : (decode0 w).variant = (decode0 u).variant := by
  unfold decode0
  rw [h]
  split
  · rfl
  split <;> rfl

theorem variant_decode8_congr {w u : Word} (h : nOf w = nOf u) : (decode8 w).variant = (decode8 u).variant := by
  unfold decode8
  rw [h]
  split <;> rfl

theorem variant_decodeE_congr {w u : Word} (h : kkOf w = kkOf u) : (decodeE w).variant = (decodeE u).variant := by
  unfold decodeE
  rw [h]
  split
  · rfl
  split <;> rfl

theorem variant_decodeF_congr {w u : Word} (h : kkOf w = kkOf u) : (decodeF w).variant = (decodeF u).variant := by
  unfold decodeF
  rw [h]
  split <;> rfl

/-- The decoder examines the family and the second byte, and no other bit (D1). -/
theorem variant_decode_congr {w u : Word} (hf : familyOf w = familyOf u) (hk : kkOf w = kkOf u) :
    (decode w).variant = (decode u).variant := by
  rcases familyOf_cases u with h | h | h | h | h | h | h | h | h | h | h | h | h | h | h | h
  all_goals rw [h] at hf
  · rw [decode_family0 w hf, decode_family0 u h, variant_decode0_congr hk]
  · rw [decode_family1 w hf, decode_family1 u h]; rfl
  · rw [decode_family2 w hf, decode_family2 u h]; rfl
  · rw [decode_family3 w hf, decode_family3 u h]; rfl
  · rw [decode_family4 w hf, decode_family4 u h]; rfl
  · rw [decode_family5 w hf, decode_family5 u h]; rfl
  · rw [decode_family6 w hf, decode_family6 u h]; rfl
  · rw [decode_family7 w hf, decode_family7 u h]; rfl
  · rw [decode_family8 w hf, decode_family8 u h, variant_decode8_congr (nOf_eq_of_kkOf_eq hk)]
  · rw [decode_family9 w hf, decode_family9 u h]; rfl
  · rw [decode_familyA w hf, decode_familyA u h]; rfl
  · rw [decode_familyB w hf, decode_familyB u h]; rfl
  · rw [decode_familyC w hf, decode_familyC u h]; rfl
  · rw [decode_familyD w hf, decode_familyD u h]; rfl
  · rw [decode_familyE w hf, decode_familyE u h, variant_decodeE_congr hk]
  · rw [decode_familyF w hf, decode_familyF u h, variant_decodeF_congr hk]

theorem variant_decode_and_byteMask (w : Word) : (decode (w &&& 0xF0FF)).variant = (decode w).variant := by
  rw [and_byteMask]
  exact variant_decode_congr (familyOf_wordXKK ..) (kkOf_wordXKK ..)

theorem variant_decode_and_nibbleMask (w : Word) (h : familyOf (w &&& 0xF00F) = 0x8) :
    (decode (w &&& 0xF00F)).variant = (decode w).variant := by
  rw [and_nibbleMask] at h ⊢
  have hf : familyOf w = 0x8 := (familyOf_wordXYN ..).symm.trans h
  rw [decode_family8 _ h, decode_family8 w hf, variant_decode8_congr (nOf_wordXYN ..)]

/-! What holds of the 38 rows, row by row and pair by pair. -/

/-- A row with a sub-selector examines the family and the second byte, or in family 8 the low nibble, and the decoder
reads the row's own variant from its bits. -/
theorem subselector_rows : ∀ row ∈ opcodeTable, row.priority = 2 →
    (row.mask = 0xF0FF ∨ row.mask = 0xF00F ∧ familyOf row.bits = 0x8) ∧ (decode row.bits).variant = row.variant := by
  decide

theorem priority_rows : ∀ row ∈ opcodeTable, row.priority = 1 ∨ row.priority = 2 := by decide

theorem rows_of_a_variant : ∀ a ∈ opcodeTable, ∀ b ∈ opcodeTable, a.variant = b.variant → a.priority = b.priority := by
  decide

/-- Two rows of one priority that agree on the bits both examine are the same row. -/
theorem rows_apart : ∀ a ∈ opcodeTable, ∀ b ∈ opcodeTable, a.priority = b.priority →
    (a.bits ^^^ b.bits) &&& a.mask &&& b.mask = 0#16 → a = b := by
  decide

theorem OpcodeRow.bits_of_selects {row : OpcodeRow} {w : Word} (h : row.selects w = true) : w &&& row.mask = row.bits :=
  beq_iff_eq.1 h

/-- A row with a sub-selector that selects a word is of the variant the word decodes to. -/
theorem variant_of_subselector_row {row : OpcodeRow} {w : Word} (hrow : row ∈ opcodeTable) (hp : row.priority = 2)
    (h : row.selects w = true) : row.variant = (decode w).variant := by
  obtain ⟨hmask, hvariant⟩ := subselector_rows row hrow hp
  have hbits := OpcodeRow.bits_of_selects h
  rw [← hvariant]
  rcases hmask with hmask | ⟨hmask, hf⟩
  · rw [← hbits, hmask, variant_decode_and_byteMask]
  · rw [← hbits, hmask] at hf ⊢
    exact variant_decode_and_nibbleMask w hf

/-- Two rows that select one word agree on the bits both examine. -/
theorem OpcodeRow.agree_of_selects {a b : OpcodeRow} {w : Word} (ha : a.selects w = true) (hb : b.selects w = true) :
    (a.bits ^^^ b.bits) &&& a.mask &&& b.mask = 0#16 := by
  rw [← bits_of_selects ha, ← bits_of_selects hb]
  apply BitVec.eq_of_getElem_eq
  intro i hi
  simp only [BitVec.getElem_and, BitVec.getElem_xor, BitVec.getElem_zero]
  cases w[i] <;> cases a.mask[i] <;> cases b.mask[i] <;> rfl

/-- Every instruction's word carries the fixed bits of a row of its variant. -/
theorem encodedRow (i : Instr) : Laws.EncodedRow.Statement i := by
  open Laws.EncodedRow in
  cases i with
  | cls x => exact cls x
  | ret x => exact ret x
  | sys nnn => exact sys nnn
  | jp nnn => exact jp nnn
  | call nnn => exact call nnn
  | seImm x kk => exact seImm x kk
  | sneImm x kk => exact sneImm x kk
  | seReg x y n => exact seReg x y n
  | ldImm x kk => exact ldImm x kk
  | addImm x kk => exact addImm x kk
  | ldReg x y => exact ldReg x y
  | orReg x y => exact orReg x y
  | andReg x y => exact andReg x y
  | xorReg x y => exact xorReg x y
  | addReg x y => exact addReg x y
  | sub x y => exact sub x y
  | shr x y => exact shr x y
  | subn x y => exact subn x y
  | shl x y => exact shl x y
  | sneReg x y n => exact sneReg x y n
  | ldI nnn => exact ldI nnn
  | jpV0 nnn => exact jpV0 nnn
  | rnd x kk => exact rnd x kk
  | drw x y n => exact drw x y n
  | skp x => exact skp x
  | sknp x => exact sknp x
  | ldXDt x => exact ldXDt x
  | ldXK x => exact ldXK x
  | ldDtX x => exact ldDtX x
  | ldStX x => exact ldStX x
  | addI x => exact addI x
  | ldF x => exact ldF x
  | ldB x => exact ldB x
  | stRegs x => exact stRegs x
  | ldRegs x => exact ldRegs x
  | unmapped8 x y n => exact unmapped8 x y n
  | unmappedE x kk => exact unmappedE x kk
  | unmappedF x kk => exact unmappedF x kk

/-- Settles O3: the row of the decoded variant selects the word; another row that does has not its priority, and a
sub-selector row that does is of the decoded variant, so it cannot stand above. -/
theorem decodeSelectsRowOfLargestPriority : Obligations.DecodeSelectsRowOfLargestPriority := by
  unfold Obligations.DecodeSelectsRowOfLargestPriority
  intro w
  obtain ⟨row, hrow, hvariant, hsel⟩ := encodedRow (decode w)
  rw [encode_decode] at hsel
  refine ⟨row, hrow, hsel, hvariant, fun row' hrow' hsel' => ?_⟩
  by_cases same : row'.priority = row.priority
  · exact .inl (rows_apart row' hrow' row hrow same (OpcodeRow.agree_of_selects hsel' hsel))
  · right
    have not_above : row'.priority ≠ 2 := fun two =>
      same (rows_of_a_variant row' hrow' row hrow ((variant_of_subselector_row hrow' two hsel').trans hvariant.symm))
    have := priority_rows row hrow
    have := priority_rows row' hrow'
    omega

end Sys2Proof

/-! ## Proofs: the vector words, `0nnn` and `Unmapped` (R55, R56, R70, R75) -/

namespace Sys2Proof

/-- Settles O4: the words are literals, and the decoder runs on them. -/
theorem vectorWordsDecodeToTheirInstr : Obligations.VectorWordsDecodeToTheirInstr := by
  unfold Obligations.VectorWordsDecodeToTheirInstr
  decide

/-- The words of `0nnn`, seen from the instruction. -/
theorem fields_encode_of_variant_sys (i : Instr) (hv : i.variant = .sys) (hw : i.wellFormed = true) :
    familyOf (encode i) = 0x0 ∧ isSub0 (kkOf (encode i)) = false := by
  cases i with
  | sys nnn =>
    refine ⟨familyOf_wordNNN .., ?_⟩
    rw [encode, kkOf_wordNNN]
    simpa [Instr.wellFormed] using hw
  | _ => cases hv

theorem variant_decode_sys_iff (w : Word) : (decode w).variant = .sys ↔ familyOf w = 0x0 ∧ isSub0 (kkOf w) = false := by
  constructor
  · intro h
    simpa only [encode_decode] using fields_encode_of_variant_sys (decode w) h (wellFormed_decode w)
  · rintro ⟨hf, hk⟩
    rw [decode_family0 w hf, decode0_of_not_isSub0 w hk]
    rfl

/-- The words of `Unmapped`, seen from the instruction. -/
theorem fields_encode_of_variant_unmapped (i : Instr) (hv : i.variant = .unmapped) (hw : i.wellFormed = true) :
    (familyOf (encode i) = 0x8 ∧ isSub8 (nOf (encode i)) = false) ∨
    (familyOf (encode i) = 0xE ∧ isSubE (kkOf (encode i)) = false) ∨
    (familyOf (encode i) = 0xF ∧ isSubF (kkOf (encode i)) = false) := by
  cases i with
  | unmapped8 x y n => exact .inl ⟨familyOf_wordXYN .., by simpa [encode, Instr.wellFormed] using hw⟩
  | unmappedE x kk => exact .inr (.inl ⟨familyOf_wordXKK .., by simpa [encode, Instr.wellFormed] using hw⟩)
  | unmappedF x kk => exact .inr (.inr ⟨familyOf_wordXKK .., by simpa [encode, Instr.wellFormed] using hw⟩)
  | _ => cases hv

theorem variant_decode_unmapped_iff (w : Word) :
    (decode w).variant = .unmapped ↔
      (familyOf w = 0x8 ∧ isSub8 (nOf w) = false) ∨ (familyOf w = 0xE ∧ isSubE (kkOf w) = false) ∨
      (familyOf w = 0xF ∧ isSubF (kkOf w) = false) := by
  constructor
  · intro h
    simpa only [encode_decode] using fields_encode_of_variant_unmapped (decode w) h (wellFormed_decode w)
  · rintro (⟨hf, hn⟩ | ⟨hf, hk⟩ | ⟨hf, hk⟩)
    · rw [decode_family8 w hf, decode8_of_not_isSub8 w hn]; rfl
    · rw [decode_familyE w hf, decodeE_of_not_isSubE w hk]; rfl
    · rw [decode_familyF w hf, decodeF_of_not_isSubF w hk]; rfl

theorem isSub0_eq_false_iff (kk : Byte) : isSub0 kk = false ↔ kk ≠ 0xE0 ∧ kk ≠ 0xEE := by
  rw [← Bool.not_eq_true, isSub0_iff, not_or]

theorem isSub8_eq_false_iff (n : Nibble) : isSub8 n = false ↔ n ∈ [0x8, 0x9, 0xA, 0xB, 0xC, 0xD, 0xF] := by
  revert n
  decide

theorem isSubE_eq_false_iff (kk : Byte) : isSubE kk = false ↔ kk ∉ [0x9E, 0xA1] := by
  simp [isSubE]

theorem isSubF_eq_false_iff (kk : Byte) :
    isSubF kk = false ↔ kk ∉ [0x07, 0x0A, 0x15, 0x18, 0x1E, 0x29, 0x33, 0x55, 0x65] := by
  simp [isSubF, and_assoc]

open Machine

theorem exec_sys (nnn : Addr) (s : State) : exec (.sys nnn) s = .next { s with pc := s.pcPlus 2 } := by
  have advances : exec (.sys nnn) s = .next s.advance := rfl
  rw [advances, State.advance_eq]

theorem exec_of_variant_unmapped {i : Instr} (s : State) (h : i.variant = .unmapped) :
    exec i s = .next { s with pc := s.pcPlus 2 } := by
  have advances : exec i s = .next s.advance := by
    cases i with
    | unmapped8 | unmappedE | unmappedF => rfl
    | _ => cases h
  rw [advances, State.advance_eq]

/-- Settles O11: the words are those the sub-selectors of family 0 leave, and the instruction is one `advance`. -/
theorem sysOnlyAdvancesPc : Obligations.SysOnlyAdvancesPc := by
  unfold Obligations.SysOnlyAdvancesPc
  refine ⟨fun w => ?_, fun w h => ?_, exec_sys⟩
  · rw [variant_decode_sys_iff, isSub0_eq_false_iff]
  · obtain ⟨hf, hk⟩ := (variant_decode_sys_iff w).1 h
    rw [decode_family0 w hf, decode0_of_not_isSub0 w hk]

/-- Settles O12: the words are those the sub-selectors of families 8, E and F leave, and the instruction is one
`advance`. -/
theorem unmappedOnlyAdvancesPc : Obligations.UnmappedOnlyAdvancesPc := by
  unfold Obligations.UnmappedOnlyAdvancesPc
  refine ⟨fun w => ?_, fun i s h => exec_of_variant_unmapped s h⟩
  rw [variant_decode_unmapped_iff, isSub8_eq_false_iff, isSubE_eq_false_iff, isSubF_eq_false_iff]

end Sys2Proof

/-! ## Proofs: the invariant (R13, R18, R26, R33, R71, R142) -/

namespace Sys2Proof.Machine

open Sys2Proof.Config

/-! ### Updates of which the invariant does not speak, and a ready engine -/

theorem State.Inv.setAgenda {s : State} (h : s.Inv) (l : List Transaction) : (s.setAgenda l).Inv :=
  ⟨h.memWf, h.progFits, h.stackHoldsReturns, h.waitsAtKeyWord, h.haltNamesCause⟩

theorem State.Inv.timerTick {s : State} (h : s.Inv) : s.timerTick.Inv :=
  ⟨h.memWf, h.progFits, h.stackHoldsReturns, h.waitsAtKeyWord, h.haltNamesCause⟩

/-- A `Ready` core neither waits nor has halted: memory, program and stack are all the invariant asks about. -/
theorem State.inv_of_ready {s : State} (hm : s.mem.wf = true) (hf : s.ProgFits) (hs : s.StackHoldsReturns)
    (he : s.engine = .ready) : s.Inv where
  memWf := hm
  progFits _ := hf
  stackHoldsReturns _ := hs
  waitsAtKeyWord _ hw := by rw [he] at hw; cases hw
  haltNamesCause _ := by unfold State.HaltNamesCause; rw [he]; trivial

theorem State.stackHoldsReturns_of_empty {s : State} (h : s.sp.val = 0) : s.StackHoldsReturns :=
  fun j hj => absurd hj (by omega)

/-! ### Faults and the key wait -/

/-- Taking a fault keeps the invariant when the fault names its cause. -/
theorem State.Inv.raise {s : State} (h : s.Inv) {e : ExecFault} (hc : (s.raise e).HaltNamesCause) : (s.raise e).Inv :=
  ⟨h.memWf, h.progFits, h.stackHoldsReturns, fun _ hw => by simp at hw, fun _ => hc⟩

/-- Suspending the engine at an `Fx0A` keeps the invariant. -/
theorem State.Inv.awaitKey {s : State} (h : s.Inv) {w : Word} (hw : fetch s.prog s.pc = .word w)
    (hv : (decode w).variant = .ldXK) : (s.setEngine .awaitingKey).Inv :=
  ⟨h.memWf, h.progFits, h.stackHoldsReturns, fun _ _ => ⟨w, hw, hv⟩, fun _ => trivial⟩

/-! ### The stack -/

theorem State.StackHoldsReturns.pop {s s' : State} {a : Addr} (h : s.StackHoldsReturns) (hp : s.pop = some (a, s')) :
    s'.StackHoldsReturns := by
  obtain ⟨hs, _, rfl⟩ := State.pop_eq_some_iff.1 hp
  exact fun j hj => h j (Nat.lt_of_lt_of_le hj (Nat.sub_le _ _))

/-- The word fetched at an address, by its entry in the program (R24, R40). -/
theorem exists_entry_of_fetch {prog : List Word} {a : Addr} {w : Word} (h : fetch prog a = .word w) :
    ∃ k, prog[k]? = some w ∧ a.toNat = memStart + insnBytes * k := by
  obtain ⟨heven, hlow, hk⟩ := fetch_eq_word_iff.1 h
  refine ⟨_, hk, ?_⟩
  simp only [memStart, insnBytes]
  omega

/-- What a call pushes is the address after a call of the program. -/
theorem State.StackHoldsReturns.push {s s' : State} {w : Word} (h : s.StackHoldsReturns)
    (hw : fetch s.prog s.pc = .word w) (hv : (decode w).variant = .call) (hp : s.push (s.pc + 2) = some s') :
    s'.StackHoldsReturns := by
  obtain ⟨hs, rfl⟩ := State.push_eq_some_iff.1 hp
  intro j hj
  by_cases top : j.val = s.sp.val
  · obtain ⟨k, hk, ha⟩ := exists_entry_of_fetch hw
    refine ⟨k, w, hk, hv, ?_⟩
    have pushed : s.pc + 2 = BitVec.ofNat 12 (memStart + insnBytes * k + 2) := by
      rw [← ha, BitVec.ofNat_add, BitVec.ofNat_toNat, BitVec.setWidth_eq]
      rfl
    simpa [top] using pushed
  · have below : j.val < s.sp.val := by simp only at hj; omega
    have kept : (s.stack.set s.sp.val (s.pc + 2))[j] = s.stack[j] := Vector.getElem_set_ne _ _ (Ne.symm top)
    obtain ⟨k, w', hk, hv', hj⟩ := h j below
    exact ⟨k, w', hk, hv', kept.trans hj⟩

/-! ### Every transaction keeps the invariant -/

/-- What an instruction fetched by a `Ready` core does keeps the invariant. -/
theorem State.Inv.exec {s t : State} {w : Word} (h : s.Inv) (hp : s.phase = .running) (he : s.engine = .ready)
    (hw : fetch s.prog s.pc = .word w) (hx : exec (decode w) s = .next t) : t.Inv := by
  have hfit := h.progFits (.inr hp)
  have hstack := h.stackHoldsReturns hp
  rcases exec_next_cases hx with ⟨x, a, s', _, hpop, rfl⟩ | ⟨x, hi, hsp, rfl⟩ | ⟨nnn, s', hi, hpush, rfl⟩ |
    ⟨nnn, hi, hsp, rfl⟩ | ⟨x, hi, rfl⟩ | ⟨_, hdata, hmem⟩
  · have hstack' := hstack.pop hpop
    obtain ⟨_, _, rfl⟩ := State.pop_eq_some_iff.1 hpop
    exact State.inv_of_ready h.memWf hfit hstack' he
  · have hv : (decode w).variant = .ret := congrArg Instr.variant hi
    exact h.raise ⟨Fin.ext hsp, w, hw, hv⟩
  · have hv : (decode w).variant = .call := congrArg Instr.variant hi
    have hstack' := hstack.push hw hv hpush
    obtain ⟨_, rfl⟩ := State.push_eq_some_iff.1 hpush
    exact State.inv_of_ready h.memWf hfit hstack' he
  · have hv : (decode w).variant = .call := congrArg Instr.variant hi
    exact h.raise ⟨Fin.ext hsp, w, hw, hv⟩
  · exact h.awaitKey hw (congrArg Instr.variant hi)
  · unfold SameButData at hdata
    have hm := hmem h.memWf
    rw [hdata] at hm ⊢
    exact State.inv_of_ready hm hfit hstack he

theorem State.Inv.stepCore {s t : State} (h : s.Inv) (hp : s.phase = .running) (hs : s.stepCore = .next t) :
    t.Inv := by
  rcases State.stepCore_cases hs with ⟨_, rfl⟩ | ⟨c, _, hf, rfl⟩ | ⟨w, he, hw, _, hx⟩
  · exact h
  · exact h.raise hf
  · exact h.exec hp he hw hx

theorem State.Inv.keyEvent {s t : State} {k : KeyCode} (h : s.Inv) (hp : s.phase = .running)
    (hs : s.keyEvent k = .next t) : t.Inv := by
  rcases State.keyEvent_cases hs with ⟨_, rfl⟩ | ⟨w, _, _, rfl⟩
  · exact h
  · exact State.inv_of_ready h.memWf (h.progFits (.inr hp)) (h.stackHoldsReturns hp) rfl

theorem State.Inv.resetCore {s : State} (h : s.Inv) (hp : s.phase = .loaded ∨ s.phase = .running) :
    s.resetCore.Inv :=
  State.inv_of_ready h.memWf (h.progFits hp) (State.stackHoldsReturns_of_empty rfl) rfl

/-- A core that is not running is asked for its memory and, once loaded, its program only. -/
theorem State.inv_of_not_running {s : State} (hp : s.phase ≠ .running) (hm : s.mem.wf = true)
    (hf : s.phase = .loaded → s.ProgFits) : s.Inv :=
  ⟨hm, fun h => hf (h.resolve_right hp), fun h => absurd h hp, fun h => absurd h hp, fun h => absurd h hp⟩

theorem State.Inv.loadRom {s : State} (h : s.Inv) (rom : List Byte) : (s.loadRom rom).Inv := by
  rcases State.loadRom_cases s rom with ⟨_, e⟩ | ⟨_, _, e⟩ | ⟨_, hlen, e⟩
  · rw [e]; exact State.inv_of_not_running (by simp) h.memWf (by simp)
  · rw [e]; exact State.inv_of_not_running (by simp) h.memWf (by simp)
  · rw [e]
    refine State.inv_of_not_running (by simp) (Memory.wf_writeBytes h.memWf _ _) fun _ => ?_
    have : insnBytes * (rom.length / 2) ≤ rom.length := Nat.mul_div_le _ _
    simpa [State.ProgFits, length_wordsOfRom] using this.trans hlen

theorem State.Inv.step {s t : State} (h : s.Inv) (hs : step s = .next t) : t.Inv := by
  by_cases hp : s.phase = .running
  · rcases step_cases_running hp hs with ⟨_, h'⟩ | ⟨rest, _, rfl⟩ | ⟨rest, _, rfl⟩ | ⟨k, rest, _, h'⟩
    · exact (h.setAgenda s.agenda.tail).stepCore hp h'
    · exact (h.setAgenda rest).resetCore (.inr hp)
    · exact (h.setAgenda rest).timerTick
    · exact (h.setAgenda rest).keyEvent hp h'
  · rcases step_cases_launch hp hs with ⟨rom, rest, _, _, rfl⟩ | ⟨rest, hq, _, rfl⟩
    · exact (h.setAgenda rest).loadRom rom
    · exact (h.setAgenda rest).resetCore (.inl hq)

/-- Settles O53: `State.Inv.step`, by what a step can do; the one live stack entry an instruction adds is the call's,
and each fault is raised where its cause holds. -/
theorem stepKeepsInv : Obligations.StepKeepsInv := fun _ _ h hs => h.step hs

/-- Settles O52: the reset state has no memory cell, no program and no stack entry, and is `Ready`. -/
theorem resetStateHasInv : Obligations.ResetStateHasInv :=
  State.inv_of_ready rfl (Nat.zero_le _) (State.stackHoldsReturns_of_empty rfl) rfl

end Sys2Proof.Machine

/-! ## Proofs: control transfer (R71 to R74, R145) -/

namespace Sys2Proof.Machine

theorem exec_jp (nnn : Addr) (s : State) : exec (.jp nnn) s = .next { s with pc := nnn } := rfl

theorem toNat_zext12 (b : Byte) : (zext12 b).toNat = b.toNat := by
  have := b.isLt
  rw [zext12, BitVec.toNat_setWidth]
  omega

theorem exec_jpV0 (nnn : Addr) (s : State) :
    exec (.jpV0 nnn) s = .next { s with pc := BitVec.ofNat 12 (((s.getV 0).toNat + nnn.toNat) % 4096) } := by
  have target : zext12 (s.getV 0) + nnn = BitVec.ofNat 12 (((s.getV 0).toNat + nnn.toNat) % 4096) := by
    apply BitVec.eq_of_toNat_eq
    rw [BitVec.toNat_add, toNat_zext12, BitVec.toNat_ofNat, Nat.mod_mod]
  rw [← target]
  rfl

theorem exec_call_of_lt (nnn : Addr) {s : State} (h : s.sp.val < 16) :
    exec (.call nnn) s =
      .next { s with stack := s.stack.set s.sp.val (s.pcPlus 2), sp := ⟨s.sp.val + 1, by omega⟩, pc := nnn } := by
  have pushes : s.push (s.pc + 2) = some _ := State.push_eq_some_iff.2 ⟨h, rfl⟩
  simp only [← State.pc_add_two, exec, execCall, pushes]
  rfl

theorem exec_call_of_full (nnn : Addr) {s : State} (h : s.sp.val = 16) :
    exec (.call nnn) s = .next { s with engine := .halted .stackOverflow } := by
  have full : s.push (s.pc + 2) = none := State.push_eq_none_iff.2 h
  simp only [exec, execCall, full]
  rfl

theorem exec_ret_of_pos (x : Nibble) {s : State} (h : 0 < s.sp.val) :
    exec (.ret x) s = .next { s with sp := ⟨s.sp.val - 1, by omega⟩, pc := s.stack[s.sp.val - 1] } := by
  have pops : s.pop = some (_, _) := State.pop_eq_some_iff.2 ⟨h, rfl, rfl⟩
  simp only [exec, execRet, pops]
  rfl

theorem exec_ret_of_empty (x : Nibble) {s : State} (h : s.sp.val = 0) :
    exec (.ret x) s = .next { s with engine := .halted .stackUnderflow } := by
  have empty : s.pop = none := State.pop_eq_none_iff.2 h
  simp only [exec, execRet, empty]
  rfl

/-- An entry of the stack after one has been written: the new one at its place, the old ones elsewhere. -/
theorem getElem_stack_set (S : Vector Addr 16) {n : Nat} (hn : n < 16) (a : Addr) (j : Fin 16) :
    (S.set n a)[j] = if j.val = n then a else S[j] := by
  simp only [Fin.getElem_fin, Vector.getElem_set, @eq_comm _ n]

/-- Settles O13: each jump is one `setPc`. -/
theorem jumpsWriteOnlyPc : Obligations.JumpsWriteOnlyPc := fun nnn s => ⟨exec_jp nnn s, exec_jpV0 nnn s⟩

/-- Settles O14: `exec_call_of_lt`, entry by entry. -/
theorem callPushesReturnAddress : Obligations.CallPushesReturnAddress := by
  unfold Obligations.CallPushesReturnAddress
  intro nnn s h
  exact ⟨_, _, exec_call_of_lt nnn h, rfl, getElem_stack_set s.stack h (s.pcPlus 2)⟩

/-- Settles O15: `exec_ret_of_pos`, with `j` the entry popped. -/
theorem retPopsReturnAddress : Obligations.RetPopsReturnAddress := by
  unfold Obligations.RetPopsReturnAddress
  intro x s j h
  have top : s.sp.val - 1 = j.val := by omega
  refine ⟨⟨s.sp.val - 1, by omega⟩, ?_, top⟩
  simp only [exec_ret_of_pos x (show 0 < s.sp.val by omega), top]
  rfl

/-- Settles O16: a full stack refuses the push, an empty one the pop, and the fault writes `ES` only. -/
theorem stackFaultsWriteOnlyEngine : Obligations.StackFaultsWriteOnlyEngine :=
  fun nnn x _ => ⟨exec_call_of_full nnn, exec_ret_of_empty x⟩

/-- Settles O17: the return finds the entry the call pushed on top. -/
theorem callThenRetReturnsPastCall : Obligations.CallThenRetReturnsPastCall := by
  unfold Obligations.CallThenRetReturnsPastCall
  intro nnn x s h
  refine ⟨_, s.stack.set s.sp.val (s.pcPlus 2), exec_call_of_lt nnn h,
    (exec_ret_of_pos x (Nat.succ_pos _)).trans ?_, fun j hj => ?_⟩
  · simp
  · rw [getElem_stack_set, if_neg hj]

end Sys2Proof.Machine

/-! ## Proofs: skips on registers (R82, R83) -/

namespace Sys2Proof.Machine

theorem exec_seReg (x y : RegIx) (n : Nibble) (s : State) :
    exec (.seReg x y n) s = .next { s with pc := if s.getV x = s.getV y then s.pcPlus 4 else s.pcPlus 2 } := by
  have skips : exec (.seReg x y n) s = .next (s.skipIf (s.getV x == s.getV y)) := rfl
  simp only [skips, State.skipIf_eq, beq_iff_eq]

theorem exec_sneReg (x y : RegIx) (n : Nibble) (s : State) :
    exec (.sneReg x y n) s = .next { s with pc := if s.getV x ≠ s.getV y then s.pcPlus 4 else s.pcPlus 2 } := by
  have skips : exec (.sneReg x y n) s = .next (s.skipIf (s.getV x != s.getV y)) := rfl
  simp only [skips, State.skipIf_eq, bne_iff_ne]

/-- Settles O19: both are a `skipIf`, which writes `PC` only. -/
theorem skipOnRegisters : Obligations.SkipOnRegisters :=
  fun x y n s => ⟨exec_seReg x y n s, exec_sneReg x y n s⟩

end Sys2Proof.Machine

/-! ## Proofs: the ALU (R90 to R103) -/

namespace Sys2Proof.Machine

/-! ### Results and flags as numbers -/

theorem toNat_flagByte (c : Bool) : (flagByte c).toNat = if c then 1 else 0 := by
  cases c <;> rfl

theorem toNat_addResult (a b : Byte) : (addResult a b).toNat = (a.toNat + b.toNat) % 256 := BitVec.toNat_ofNat ..

theorem toNat_addCarry (a b : Byte) : (addCarry a b).toNat = if a.toNat + b.toNat > 255 then 1 else 0 := by
  rw [addCarry, toNat_flagByte]
  simp only [decide_eq_true_eq]

theorem toNat_subResult (a b : Byte) : ((subResult a b).toNat : Int) = ((a.toNat : Int) - b.toNat) % 256 := by
  have := b.isLt
  rw [subResult, BitVec.toNat_ofNat]
  omega

theorem toNat_subNotBorrow (a b : Byte) : (subNotBorrow a b).toNat = if a.toNat ≥ b.toNat then 1 else 0 := by
  rw [subNotBorrow, toNat_flagByte]
  simp only [decide_eq_true_eq]

theorem toNat_shrResult (a : Byte) : (shrResult a).toNat = a.toNat / 2 := by
  rw [shrResult, BitVec.toNat_ushiftRight, Nat.shiftRight_eq_div_pow, pow_one]

theorem toNat_and_one (a : Byte) : (a &&& 1).toNat = a.toNat % 2 := by
  have low : (a &&& 1).toNat = a.toNat &&& 1 := BitVec.toNat_and ..
  rw [low, Nat.and_one_is_mod]

theorem toNat_shrOut (a : Byte) : (shrOut a).toNat = a.toNat % 2 := toNat_and_one a

theorem toNat_shlResult (a : Byte) : (shlResult a).toNat = a.toNat * 2 % 256 := by
  rw [shlResult, BitVec.toNat_shiftLeft, Nat.shiftLeft_eq, pow_one]

theorem toNat_shlOut (a : Byte) : (shlOut a).toNat = a.toNat / 128 := by
  have := a.isLt
  rw [shlOut, toNat_and_one, BitVec.toNat_ushiftRight, Nat.shiftRight_eq_div_pow]
  omega

/-! ### The three ways to write registers and move on -/

/-- One register written, then `PC + 2`. -/
theorem exec_of_setV {i : Instr} {s : State} {x : RegIx} {b : Byte} (h : exec i s = .next (s.setV x b).advance) :
    ∃ v' : Vector Byte 16, exec i s = .next { s with v := v', pc := s.pcPlus 2 } ∧
      ∀ r : RegIx, v'[r] = if r = x then b else s.getV r :=
  ⟨(s.setV x b).v, by rw [h, State.setV_advance_eq], fun r => s.getV_setV x r b⟩

/-- A result, then a flag, then `PC + 2`. -/
theorem exec_of_setResultThenFlag {i : Instr} {s : State} {x : RegIx} {res f : Byte}
    (h : exec i s = .next (s.setResultThenFlag x res f).advance) :
    ∃ v' : Vector Byte 16, exec i s = .next { s with v := v', pc := s.pcPlus 2 } ∧
      ∀ r : RegIx, v'[r] = if r = flagIx then f else if r = x then res else s.getV r :=
  ⟨(s.setResultThenFlag x res f).v, by rw [h, State.advance_eq]; rfl, fun r => s.getV_setResultThenFlag x r res f⟩

/-- A flag, then a result, then `PC + 2`. -/
theorem exec_of_setFlagThenResult {i : Instr} {s : State} {x : RegIx} {f res : Byte}
    (h : exec i s = .next (s.setFlagThenResult x f res).advance) :
    ∃ v' : Vector Byte 16, exec i s = .next { s with v := v', pc := s.pcPlus 2 } ∧
      ∀ r : RegIx, v'[r] = if r = x then res else if r = flagIx then f else s.getV r :=
  ⟨(s.setFlagThenResult x f res).v, by rw [h, State.advance_eq]; rfl, fun r => s.getV_setFlagThenResult x r f res⟩

/-- Settles O21: one register is written. -/
theorem addImmediateWritesNoFlag : Obligations.AddImmediateWritesNoFlag := by
  unfold Obligations.AddImmediateWritesNoFlag
  intro x kk s
  obtain ⟨v', hx, hv⟩ := exec_of_setV (i := .addImm x kk) (s := s) rfl
  refine ⟨v', hx, fun r => ?_⟩
  rw [hv, apply_ite BitVec.toNat, toNat_addResult]

/-- Settles O22: each of the four writes one register, and the bitwise operations act bit by bit. -/
theorem moveAndLogicWriteNoFlag : Obligations.MoveAndLogicWriteNoFlag := by
  unfold Obligations.MoveAndLogicWriteNoFlag
  intro x y s
  obtain ⟨m, hm, em⟩ := exec_of_setV (i := .ldReg x y) (s := s) rfl
  obtain ⟨o, ho, eo⟩ := exec_of_setV (i := .orReg x y) (s := s) rfl
  obtain ⟨a, ha, ea⟩ := exec_of_setV (i := .andReg x y) (s := s) rfl
  obtain ⟨e, he, ee⟩ := exec_of_setV (i := .xorReg x y) (s := s) rfl
  refine ⟨m, o, a, e, hm, ho, ha, he, fun r k => ?_⟩
  rw [em, eo, ea, ee]
  by_cases hr : r = x
  · simp [hr]
  · simp [hr]

/-- Settles O23: the sum goes to `V[x]`, then the carry to `VF`. -/
theorem addSetsCarry : Obligations.AddSetsCarry := by
  unfold Obligations.AddSetsCarry
  intro x y s
  obtain ⟨v', hx, hv⟩ := exec_of_setResultThenFlag (i := .addReg x y) (s := s) rfl
  refine ⟨v', hx, fun r => ?_⟩
  rw [hv, apply_ite BitVec.toNat, apply_ite BitVec.toNat, toNat_addCarry, toNat_addResult]

/-- Settles O24: the not-borrow goes to `VF`, then the difference to `V[x]`. -/
theorem subtractSetsNotBorrow : Obligations.SubtractSetsNotBorrow := by
  unfold Obligations.SubtractSetsNotBorrow
  intro x y s
  obtain ⟨v', hv', ev⟩ := exec_of_setFlagThenResult (i := .sub x y) (s := s) rfl
  obtain ⟨u', hu', eu⟩ := exec_of_setFlagThenResult (i := .subn x y) (s := s) rfl
  refine ⟨v', u', hv', hu', fun r => ?_, fun r => ?_⟩
  · simp only [ev, apply_ite BitVec.toNat, apply_ite Nat.cast, toNat_subResult, toNat_subNotBorrow]
    rfl
  · simp only [eu, apply_ite BitVec.toNat, apply_ite Nat.cast, toNat_subResult, toNat_subNotBorrow]
    rfl

/-- Settles O25: the bit shifted out goes to `VF`, then the shifted value to `V[x]`. -/
theorem shiftsSetBitShiftedOut : Obligations.ShiftsSetBitShiftedOut := by
  unfold Obligations.ShiftsSetBitShiftedOut
  intro x y s
  obtain ⟨v', hv', ev⟩ := exec_of_setFlagThenResult (i := .shr x y) (s := s) rfl
  obtain ⟨u', hu', eu⟩ := exec_of_setFlagThenResult (i := .shl x y) (s := s) rfl
  refine ⟨v', u', hv', hu', fun r => ?_, fun r => ?_⟩
  · rw [ev, apply_ite BitVec.toNat, apply_ite BitVec.toNat, toNat_shrResult, toNat_shrOut]
  · rw [eu, apply_ite BitVec.toNat, apply_ite BitVec.toNat, toNat_shlResult, toNat_shlOut]

end Sys2Proof.Machine

/-! ## Proofs: address register and memory (R110 to R116) -/

namespace Sys2Proof.Machine

open Sys2Proof.Config

theorem exec_ldI (nnn : Addr) (s : State) : exec (.ldI nnn) s = .next { s with ireg := nnn, pc := s.pcPlus 2 } := by
  have writes : exec (.ldI nnn) s = .next (s.setI nnn).advance := rfl
  rw [writes, State.advance_eq]
  rfl

theorem exec_addI (x : RegIx) (s : State) :
    exec (.addI x) s =
      .next { s with ireg := BitVec.ofNat 12 ((s.ireg.toNat + (s.getV x).toNat) % 4096), pc := s.pcPlus 2 } := by
  have writes : exec (.addI x) s = .next (s.setI (s.ireg + zext12 (s.getV x))).advance := rfl
  have sum : s.ireg + zext12 (s.getV x) = BitVec.ofNat 12 ((s.ireg.toNat + (s.getV x).toNat) % 4096) := by
    apply BitVec.eq_of_toNat_eq
    rw [BitVec.toNat_add, toNat_zext12, BitVec.toNat_ofNat, Nat.mod_mod]
  rw [writes, State.advance_eq, sum]
  rfl

theorem exec_ldF_of_code {x : RegIx} {s : State} {d : KeyCode} (h : keyCodeOf s.cfg (s.getV x) = some d) :
    exec (.ldF x) s = .next { s with ireg := s.cfg.fontAddr[d], pc := s.pcPlus 2 } := by
  have writes : exec (.ldF x) s = .next (s.setI (glyphAddr s.cfg d)).advance := by simp only [exec, execLdF, h]
  rw [writes, State.advance_eq]
  rfl

theorem exec_ldF_of_no_code {x : RegIx} {s : State} (h : keyCodeOf s.cfg (s.getV x) = none) :
    exec (.ldF x) s = .refused .keyCodeAbove15 := by
  simp only [exec, execLdF, h]

/-- Settles O26: each writes `I` and moves on. -/
theorem indexLoadAndAdd : Obligations.IndexLoadAndAdd := fun nnn x s => ⟨exec_ldI nnn s, exec_addI x s⟩

/-- Settles O27: by whether the byte names a digit. -/
theorem glyphAddressOfDigit : Obligations.GlyphAddressOfDigit := by
  unfold Obligations.GlyphAddressOfDigit
  intro x s d hd
  exact ⟨fun h => exec_ldF_of_code (keyCodeOf_of hd h),
    fun h hp => exec_ldF_of_no_code (keyCodeOf_eq_none_iff.2 ⟨h, hp⟩)⟩

/-! ### Runs of bytes from `I` on -/

/-- Byte `k` of a run stored from `I` on reads back at `(I + k) mod 4096`. -/
theorem read_writeBytes_dataAddr {s : State} {bs : List Byte} {k : Nat} {b : Byte} (hm : s.mem.wf = true)
    (hlen : bs.length ≤ 16) (hk : bs[k]? = some b) : (s.mem.writeBytes s.ireg bs).read (s.dataAddr k) = b := by
  obtain ⟨hlt, -⟩ := List.getElem?_eq_some_iff.1 hk
  rw [Memory.read_writeBytes hm _ _ _ (hlen.trans (by decide)), offsetFrom_dataAddr s (by omega), hk]
  rfl

/-- A byte at no `(I + k) mod 4096` of a run stored from `I` on reads as before. -/
theorem read_writeBytes_off_run {s : State} {bs : List Byte} {a : Addr} (hm : s.mem.wf = true)
    (hlen : bs.length ≤ 16) (ha : ∀ k < bs.length, a ≠ s.dataAddr k) :
    (s.mem.writeBytes s.ireg bs).read a = s.mem.read a := by
  refine Memory.read_writeBytes_outside hm (hlen.trans (by decide)) (Nat.not_lt.1 fun inside => ?_)
  obtain ⟨k, hk, e⟩ := exists_dataAddr_of_offset_lt s inside
  exact ha k hk e

theorem exec_ldB (x : RegIx) (s : State) :
    exec (.ldB x) s = .next { s with mem := s.mem.writeBytes s.ireg (bcdDigits (s.getV x)), pc := s.pcPlus 2 } := by
  have writes : exec (.ldB x) s = .next (s.setMem (s.mem.writeBytes s.ireg (bcdDigits (s.getV x)))).advance := rfl
  rw [writes, State.advance_eq]
  rfl

theorem exec_stRegs (x : RegIx) (s : State) :
    exec (.stRegs x) s =
      .next { s with mem := s.mem.writeBytes s.ireg (s.firstRegs (x.val + 1)), pc := s.pcPlus 2 } := by
  have writes :
    exec (.stRegs x) s = .next (s.setMem (s.mem.writeBytes s.ireg (s.firstRegs (x.val + 1)))).advance := rfl
  rw [writes, State.advance_eq]
  rfl

theorem exec_ldRegs (x : RegIx) (s : State) :
    exec (.ldRegs x) s = .next { s with v := (s.loadFirstRegs (x.val + 1)).v, pc := s.pcPlus 2 } := by
  have writes : exec (.ldRegs x) s = .next (s.loadFirstRegs (x.val + 1)).advance := rfl
  rw [writes, State.loadFirstRegs_eq, State.advance_eq]
  rfl

/-- Settles O28: the three digits are a run from `I` on, and each is below 256. -/
theorem bcdStoresThreeDigits : Obligations.BcdStoresThreeDigits := by
  unfold Obligations.BcdStoresThreeDigits
  intro x s hm
  have hlen : (bcdDigits (s.getV x)).length ≤ 16 := (length_bcdDigits _).trans_le (by decide)
  have := (s.getV x).isLt
  refine ⟨_, exec_ldB x s, ?_, ?_, ?_, fun a ha => read_writeBytes_off_run hm hlen ha⟩
  · rw [read_writeBytes_dataAddr hm hlen rfl, BitVec.toNat_ofNat]
    omega
  · rw [read_writeBytes_dataAddr hm hlen rfl, BitVec.toNat_ofNat]
    omega
  · rw [read_writeBytes_dataAddr hm hlen rfl, BitVec.toNat_ofNat]
    omega

theorem regOfNat_val (k : RegIx) : regOfNat k.val = k := Fin.ext (Nat.mod_eq_of_lt k.isLt)

/-- Settles O29: the registers up to `V[x]` are a run from `I` on. -/
theorem storeRegisterRun : Obligations.StoreRegisterRun := by
  unfold Obligations.StoreRegisterRun
  intro x s hm
  have hlen : (s.firstRegs (x.val + 1)).length = x.val + 1 := s.length_firstRegs _
  have hlen16 : (s.firstRegs (x.val + 1)).length ≤ 16 := hlen.trans_le x.isLt
  refine ⟨_, exec_stRegs x s, fun k hk => read_writeBytes_dataAddr hm hlen16 ?_,
    fun a ha => read_writeBytes_off_run hm hlen16 fun k hk => ?_⟩
  · rw [s.getElem?_firstRegs (Nat.lt_succ_of_le hk), regOfNat_val]
  · rw [hlen] at hk
    exact ha ⟨k, by omega⟩ (Nat.le_of_lt_succ hk)

/-- Settles O30: `State.getV_loadFirstRegs`. -/
theorem loadRegisterRun : Obligations.LoadRegisterRun := by
  unfold Obligations.LoadRegisterRun
  intro x s
  refine ⟨_, exec_ldRegs x s, fun r => ?_⟩
  exact (s.getV_loadFirstRegs x.isLt r).trans (by simp only [Nat.lt_succ_iff])

theorem State.pcPlus_pcPlus (s t : State) (d e : Nat) (h : t.pc = s.pcPlus d) : t.pcPlus e = s.pcPlus (d + e) := by
  apply BitVec.eq_of_toNat_eq
  simp only [State.pcPlus, h, BitVec.toNat_ofNat]
  omega

/-- Settles O31: the load reads the run the store wrote, from the same `I`. -/
theorem storedRegistersLoadBack : Obligations.StoredRegistersLoadBack := by
  unfold Obligations.StoredRegistersLoadBack
  intro x s v' hm
  obtain ⟨m, hst, stored, -⟩ := storeRegisterRun x s hm
  obtain ⟨u', hld, loaded⟩ := loadRegisterRun x { s with mem := m, pc := s.pcPlus 2, v := v' }
  refine ⟨_, _, hst, hld, State.pcPlus_pcPlus s _ 2 2 rfl, rfl, fun r => (loaded r).trans ?_⟩
  split
  · rename_i hr; exact stored r hr
  · rfl

end Sys2Proof.Machine

/-! ## Proofs: timers and random bytes (R120 to R123) -/

namespace Sys2Proof.Machine

open Sys2Proof.Config

theorem exec_ldDtX (x : RegIx) (s : State) : exec (.ldDtX x) s = .next { s with dt := s.getV x, pc := s.pcPlus 2 } := by
  have writes : exec (.ldDtX x) s = .next (s.setDt (s.getV x)).advance := rfl
  rw [writes, State.advance_eq]
  rfl

theorem exec_ldStX (x : RegIx) (s : State) : exec (.ldStX x) s = .next { s with st := s.getV x, pc := s.pcPlus 2 } := by
  have writes : exec (.ldStX x) s = .next (s.setSt (s.getV x)).advance := rfl
  rw [writes, State.advance_eq]
  rfl

/-- Settles O32: one register, or one timer, is written. -/
theorem timerReadAndWrites : Obligations.TimerReadAndWrites :=
  fun x s => ⟨exec_of_setV (i := .ldXDt x) rfl, exec_ldDtX x s, exec_ldStX x s⟩

/-- Where an answer of the host comes from: its list, or the next free value when the list is empty (log entry 4). -/
def Answers {α : Type} (list : List α) (free : Nat → α) (ix : Nat) (a : α) (rest : List α) (ix' : Nat) : Prop :=
  list = a :: rest ∧ ix' = ix ∨ list = [] ∧ rest = [] ∧ a = free ix ∧ ix' = ix + 1

/-- `NextByte()`: one call, one answer, nothing else. -/
theorem State.nextByte_answers (s : State) : ∃ (b : Byte) (rest : List Byte) (ix : Nat),
    Answers s.entropyIn freeByte s.freeIx b rest ix ∧
    s.nextByte = (b, { s with calls := s.calls ++ [.nextByte], entropyIn := rest, freeIx := ix }) := by
  rcases s.nextByte_cases with ⟨b, rest, hl, h⟩ | ⟨hl, h⟩
  · exact ⟨b, rest, _, .inl ⟨hl, rfl⟩, h⟩
  · exact ⟨_, [], _, .inr ⟨hl, rfl, rfl, rfl⟩, by rw [h, ← hl]⟩

theorem exec_rnd {x : RegIx} {kk b : Byte} {s s' : State} (h : s.nextByte = (b, s')) :
    ∃ v' : Vector Byte 16, exec (.rnd x kk) s = .next { s' with v := v', pc := s'.pcPlus 2 } ∧
      ∀ r : RegIx, v'[r] = if r = x then b &&& kk else s'.getV r := by
  have writes : exec (.rnd x kk) s = .next (s.nextByte.2.setV x (s.nextByte.1 &&& kk)).advance := rfl
  rw [writes, h, State.setV_advance_eq]
  exact ⟨_, rfl, fun r => s'.getV_setV x r (b &&& kk)⟩

/-- Settles O33: one answer is taken, and the byte under the mask is one register's write. -/
theorem randomByteUnderMask : Obligations.RandomByteUnderMask := by
  unfold Obligations.RandomByteUnderMask
  intro x kk s
  obtain ⟨b, rest, ix, answer, h⟩ := s.nextByte_answers
  obtain ⟨v', hx, hv⟩ := exec_rnd (x := x) (kk := kk) h
  refine ⟨b, v', rest, ix, hx, answer, fun r k => ?_⟩
  rw [hv]
  by_cases hr : r = x
  · simp [hr]
  · simp only [hr, if_false]
    rfl

end Sys2Proof.Machine

/-! ## Proofs: display and keys (R130 to R136) -/

namespace Sys2Proof.Machine

open Sys2Proof.Config

theorem exec_cls (x : Nibble) (s : State) :
    exec (.cls x) s = .next { s with pc := s.pcPlus 2, calls := s.calls ++ [.clearScreen] } := by
  have calls : exec (.cls x) s = .next s.clearScreen.advance := rfl
  rw [calls, State.advance_eq]
  rfl

/-- Settles O34: one call, then `advance`. -/
theorem clearScreenCallsOnce : Obligations.ClearScreenCallsOnce := exec_cls

/-- `DrawSprite`: one call, one answer, nothing else. -/
theorem State.drawSprite_answers (s : State) (x y : Byte) (rows : List Byte) :
    ∃ (c : Bool) (rest : List Bool) (ix : Nat), Answers s.collisionIn freeCollision s.freeIx c rest ix ∧
      s.drawSprite x y rows =
        (c, { s with calls := s.calls ++ [.drawSprite x y rows], collisionIn := rest, freeIx := ix }) := by
  rcases s.drawSprite_cases x y rows with ⟨c, rest, hl, h⟩ | ⟨hl, h⟩
  · exact ⟨c, rest, _, .inl ⟨hl, rfl⟩, h⟩
  · exact ⟨_, [], _, .inr ⟨hl, rfl, rfl, rfl⟩, by rw [h, ← hl]⟩

/-- `IsKeyDown`: one call, one answer, nothing else. -/
theorem State.isKeyDown_answers (s : State) (c : KeyCode) :
    ∃ (d : Bool) (rest : List Bool) (ix : Nat), Answers s.keyIn freeKeyDown s.freeIx d rest ix ∧
      s.isKeyDown c = (d, { s with calls := s.calls ++ [.isKeyDown c], keyIn := rest, freeIx := ix }) := by
  rcases s.isKeyDown_cases c with ⟨d, rest, hl, h⟩ | ⟨hl, h⟩
  · exact ⟨d, rest, _, .inl ⟨hl, rfl⟩, h⟩
  · exact ⟨_, [], _, .inr ⟨hl, rfl, rfl, rfl⟩, by rw [h, ← hl]⟩

theorem exec_drw {x y : RegIx} {n : Nibble} {s s' : State} {c : Bool}
    (h : s.drawSprite (s.getV x) (s.getV y) (s.spriteRows n) = (c, s')) :
    ∃ v' : Vector Byte 16, exec (.drw x y n) s = .next { s' with v := v', pc := s'.pcPlus 2 } ∧
      ∀ r : RegIx, v'[r] = if r = flagIx then flagByte c else s'.getV r := by
  have writes : exec (.drw x y n) s = .next ((s.drawSprite (s.getV x) (s.getV y) (s.spriteRows n)).2.setV flagIx
      (collisionFlag (s.drawSprite (s.getV x) (s.getV y) (s.spriteRows n)).1)).advance := rfl
  rw [writes, h, State.setV_advance_eq]
  exact ⟨_, rfl, fun r => s'.getV_setV flagIx r (collisionFlag c)⟩

/-- Settles O35: one call with the run from `I` on, and the answer is one write to `VF`. -/
theorem drawReportsCollision : Obligations.DrawReportsCollision := by
  unfold Obligations.DrawReportsCollision
  intro x y n s
  obtain ⟨c, rest, ix, answer, h⟩ := s.drawSprite_answers (s.getV x) (s.getV y) (s.spriteRows n)
  obtain ⟨v', hx, hv⟩ := exec_drw h
  exact ⟨s.spriteRows n, c, v', rest, ix, hx,
    ⟨Memory.length_readBytes .., fun _ hk => Memory.getElem?_readBytes _ _ hk⟩, answer, hv⟩

theorem exec_skp_of_code {x : RegIx} {s s' : State} {c : KeyCode} {d : Bool}
    (hc : keyCodeOf s.cfg (s.getV x) = some c) (h : s.isKeyDown c = (d, s')) :
    exec (.skp x) s = .next { s' with pc := if d then s'.pcPlus 4 else s'.pcPlus 2 } := by
  simp only [exec, execSkp, hc, h, State.skipIf_eq]

theorem exec_sknp_of_code {x : RegIx} {s s' : State} {c : KeyCode} {d : Bool}
    (hc : keyCodeOf s.cfg (s.getV x) = some c) (h : s.isKeyDown c = (d, s')) :
    exec (.sknp x) s = .next { s' with pc := if d then s'.pcPlus 2 else s'.pcPlus 4 } := by
  cases d <;> simp only [exec, execSknp, hc, h, State.skipIf_eq] <;> rfl

theorem exec_skp_of_no_code {x : RegIx} {s : State} (h : keyCodeOf s.cfg (s.getV x) = none) :
    exec (.skp x) s = .refused .keyCodeAbove15 := by
  simp only [exec, execSkp, h]

theorem exec_sknp_of_no_code {x : RegIx} {s : State} (h : keyCodeOf s.cfg (s.getV x) = none) :
    exec (.sknp x) s = .refused .keyCodeAbove15 := by
  simp only [exec, execSknp, h]

/-- Settles O36: by whether the byte names a key; both skips take the one answer. -/
theorem skipOnKey : Obligations.SkipOnKey := by
  unfold Obligations.SkipOnKey
  intro x s c hc
  refine ⟨fun h => ?_, fun h hp => ?_⟩
  · have code := keyCodeOf_of hc h
    obtain ⟨d, rest, ix, answer, hd⟩ := s.isKeyDown_answers c
    exact ⟨d, rest, ix, answer, exec_skp_of_code code hd, exec_sknp_of_code code hd⟩
  · have no_code := keyCodeOf_eq_none_iff.2 ⟨h, hp⟩
    exact ⟨exec_skp_of_no_code no_code, exec_sknp_of_no_code no_code⟩

theorem exec_ldXK (x : RegIx) (s : State) : exec (.ldXK x) s = .next { s with engine := .awaitingKey } := rfl

theorem xOf_of_decode_ldXK {w : Word} {x : RegIx} (h : decode w = .ldXK x) : xOf w = x := by
  rw [← encode_decode w, h, encode, xOf_wordXKK]

/-- The key event that finds the engine waiting. -/
theorem State.keyEvent_of_waiting {s : State} {w : Word} (k : KeyCode) (he : s.engine = .awaitingKey)
    (hw : fetch s.prog s.pc = .word w) :
    s.keyEvent k = .next (((s.setV (xOf w) (BitVec.ofNat 8 k.val)).advance).setEngine .ready) := by
  simp only [State.keyEvent, he, hw]

/-- A transaction of a running core, taken off the agenda. -/
theorem step_of_running {s : State} {t : Transaction} {rest : List Transaction} (hp : s.phase = .running)
    (ha : s.agenda = t :: rest) : step s = (s.setAgenda rest).transactRunning t := by
  rw [step_of_cons ha]
  simp only [State.transact, State.setAgenda_phase, hp]

/-- Settles O37: the key event writes the register that the waiting word names. -/
theorem keyWaitCompletesAtKeyEvent : Obligations.KeyWaitCompletesAtKeyEvent := by
  unfold Obligations.KeyWaitCompletesAtKeyEvent
  intro x s
  refine ⟨exec_ldXK x s, fun w k rest hp he hw hd ha => ?_⟩
  have hx := xOf_of_decode_ldXK hd
  refine ⟨(s.setV x (BitVec.ofNat 8 k.val)).v, ?_, fun r => ?_⟩
  · rw [step_of_running hp ha, State.transactRunning, State.keyEvent_of_waiting (s := s.setAgenda rest) k he hw, hx,
      State.setV_advance_eq]
    rfl
  · have written := congrArg BitVec.toNat (s.getV_setV x r (BitVec.ofNat 8 k.val))
    have small : (BitVec.ofNat 8 k.val).toNat = k.val := by
      have := k.isLt
      rw [BitVec.toNat_ofNat]
      omega
    rw [apply_ite BitVec.toNat, small] at written
    exact written

end Sys2Proof.Machine

/-! ## Proofs: what an instruction leaves unchanged (R10 to R22, R30, R6) -/

namespace Sys2Proof.Machine

theorem eq_of_next {r : Result} {s t : State} (hs : r = .next s) (ht : r = .next t) : s = t := by
  rw [hs] at ht
  injection ht

/-- What an instruction leaves unchanged unless its variant is listed for it. A field that is not given is unchanged by
definition. -/
structure ExecFrame (i : Instr) (s t : State) : Prop where
  pc : i.variant ∉ [.jp, .call, .ret, .jpV0, .seImm, .sneImm, .seReg, .sneReg, .skp, .sknp, .ldXK] →
    t.pc = s.pc + 2 := by exact fun _ => rfl
  regs : ∀ r : RegIx, mayWriteReg i r = false → t.getV r = s.getV r := by exact fun _ _ => rfl
  ireg : i.variant ∉ [.ldI, .addI, .ldF] → t.ireg = s.ireg := by exact fun _ => rfl
  dt : i.variant ≠ .ldDtX → t.dt = s.dt := by exact fun _ => rfl
  st : i.variant ≠ .ldStX → t.st = s.st := by exact fun _ => rfl
  mem : i.variant ∉ [.ldB, .stRegs] → t.mem = s.mem := by exact fun _ => rfl
  calls : i.variant ∉ [.cls, .drw, .skp, .sknp, .rnd] → t.calls = s.calls := by exact fun _ => rfl

/-- An instruction that is one register write and `advance`. -/
theorem ExecFrame.of_setV {i : Instr} {s : State} {x : RegIx} {b : Byte} (hi : ∀ r, mayWriteReg i r = (r == x)) :
    ExecFrame i s (s.setV x b).advance where
  regs r hr := State.getV_setV_ne s b (by simpa [hi] using hr)

theorem ExecFrame.of_setResultThenFlag {i : Instr} {s : State} {x : RegIx} {res f : Byte}
    (hi : ∀ r, mayWriteReg i r = (r == x || r == flagIx)) :
    ExecFrame i s (s.setResultThenFlag x res f).advance where
  regs r hr := by
    obtain ⟨hx, hf⟩ : r ≠ x ∧ r ≠ flagIx := by simpa [hi] using hr
    rw [State.advance_getV, State.getV_setResultThenFlag, if_neg hf, if_neg hx]

theorem ExecFrame.of_setFlagThenResult {i : Instr} {s : State} {x : RegIx} {f res : Byte}
    (hi : ∀ r, mayWriteReg i r = (r == x || r == flagIx)) :
    ExecFrame i s (s.setFlagThenResult x f res).advance where
  regs r hr := by
    obtain ⟨hx, hf⟩ : r ≠ x ∧ r ≠ flagIx := by simpa [hi] using hr
    rw [State.advance_getV, State.getV_setFlagThenResult, if_neg hx, if_neg hf]

/-- A key skip that answers a next state asked the host about one key. -/
theorem exec_skipKey_cases {i : Instr} {x : RegIx} {s t : State} (hi : i = .skp x ∨ i = .sknp x)
    (h : exec i s = .next t) :
    ∃ c a rest ix, t = { s with pc := a, calls := s.calls ++ [.isKeyDown c], keyIn := rest, freeIx := ix } := by
  cases hc : keyCodeOf s.cfg (s.getV x) with
  | none =>
    rcases hi with rfl | rfl
    · rw [exec_skp_of_no_code hc] at h; cases h
    · rw [exec_sknp_of_no_code hc] at h; cases h
  | some c =>
    obtain ⟨d, rest, ix, -, hd⟩ := s.isKeyDown_answers c
    rcases hi with rfl | rfl
    · exact ⟨c, _, rest, ix, eq_of_next h (exec_skp_of_code hc hd)⟩
    · exact ⟨c, _, rest, ix, eq_of_next h (exec_sknp_of_code hc hd)⟩

theorem exec_ldF_cases {x : RegIx} {s t : State} (h : exec (.ldF x) s = .next t) :
    ∃ a, t = (s.setI a).advance := by
  simp only [exec, execLdF] at h
  split at h
  · injection h with h; exact ⟨_, h.symm⟩
  · cases h

theorem execFrame {i : Instr} {s t : State} (h : exec i s = .next t) : ExecFrame i s t := by
  cases i
  case ret x =>
    rcases exec_ret_cases h with ⟨a, s', hp, rfl⟩ | ⟨_, rfl⟩
    · obtain ⟨_, _, rfl⟩ := State.pop_eq_some_iff.1 hp
      exact { pc := by simp [Instr.variant] }
    · exact { pc := by simp [Instr.variant] }
  case call nnn =>
    rcases exec_call_cases h with ⟨s', hp, rfl⟩ | ⟨_, rfl⟩
    · obtain ⟨_, rfl⟩ := State.push_eq_some_iff.1 hp
      exact { pc := by simp [Instr.variant] }
    · exact { pc := by simp [Instr.variant] }
  case skp x | sknp x =>
    obtain ⟨c, a, rest, ix, rfl⟩ := exec_skipKey_cases (x := x) (by simp) h
    exact { pc := by simp [Instr.variant], calls := by simp [Instr.variant] }
  case ldF x =>
    obtain ⟨a, rfl⟩ := exec_ldF_cases h
    exact { ireg := by simp [Instr.variant] }
  case rnd x kk =>
    obtain ⟨b, rest, ix, -, hb⟩ := s.nextByte_answers
    obtain ⟨v', hx, hv⟩ := exec_rnd (x := x) (kk := kk) hb
    obtain rfl := eq_of_next hx h
    exact { pc := fun _ => s.pc_add_two.symm, calls := by simp [Instr.variant],
            regs := fun r hr => (hv r).trans (if_neg (by simpa [mayWriteReg] using hr)) }
  case drw x y n =>
    obtain ⟨c, rest, ix, -, hc⟩ := s.drawSprite_answers (s.getV x) (s.getV y) (s.spriteRows n)
    obtain ⟨v', hx, hv⟩ := exec_drw hc
    obtain rfl := eq_of_next hx h
    exact { pc := fun _ => s.pc_add_two.symm, calls := by simp [Instr.variant],
            regs := fun r hr => (hv r).trans (if_neg (by simpa [mayWriteReg] using hr)) }
  case ldRegs x =>
    obtain ⟨v', hx, hv⟩ := loadRegisterRun x s
    obtain rfl := eq_of_next hx h
    exact { pc := fun _ => s.pc_add_two.symm,
            regs := fun r hr => (hv r).trans (if_neg (by simpa [mayWriteReg] using hr)) }
  all_goals
    injection h with h
    subst h
  case cls => exact { calls := by simp [Instr.variant] }
  case jp | jpV0 | seImm | sneImm | seReg | sneReg | ldXK => exact { pc := by simp [Instr.variant] }
  case ldImm | addImm | ldReg | orReg | andReg | xorReg | ldXDt => exact ExecFrame.of_setV fun _ => rfl
  case addReg => exact ExecFrame.of_setResultThenFlag fun _ => rfl
  case sub | shr | subn | shl => exact ExecFrame.of_setFlagThenResult fun _ => rfl
  case ldI | addI => exact { ireg := by simp [Instr.variant] }
  case ldDtX => exact { dt := by simp [Instr.variant] }
  case ldStX => exact { st := by simp [Instr.variant] }
  case ldB | stRegs => exact { mem := by simp [Instr.variant] }
  case sys | unmapped8 | unmappedE | unmappedF => exact {}

/-- The stack, `SP` and `ES` after an instruction that is neither return, call nor key wait. -/
theorem SameButData.stack_sp_engine {s t : State} (h : SameButData s t) :
    t.stack = s.stack ∧ t.sp = s.sp ∧ t.engine = s.engine := by
  unfold SameButData at h
  rw [h]
  exact ⟨rfl, rfl, rfl⟩

/-- Settles O38: `execFrame`. -/
theorem otherVariantsAdvanceByTwo : Obligations.OtherVariantsAdvanceByTwo :=
  fun _ s _ h hv => ((execFrame h).pc hv).trans s.pc_add_two

/-- Settles O39: `execFrame`. -/
theorem registersOutsideWriteTableStay : Obligations.RegistersOutsideWriteTableStay :=
  fun _ _ _ r h hr => (execFrame h).regs r hr

/-- Settles O40: `execFrame`. -/
theorem onlyListedVariantsWriteIAndTimers : Obligations.OnlyListedVariantsWriteIAndTimers :=
  fun _ _ _ h => ⟨(execFrame h).ireg, (execFrame h).dt, (execFrame h).st⟩

theorem exec_stack_sp {i : Instr} {s t : State} (h : exec i s = .next t) :
    (i.variant ≠ .call → t.stack = s.stack) ∧ (i.variant ∉ [.call, .ret] → t.sp = s.sp) := by
  rcases exec_next_cases h with ⟨x, a, s', rfl, hp, rfl⟩ | ⟨x, rfl, _, rfl⟩ | ⟨nnn, s', rfl, hp, rfl⟩ |
    ⟨nnn, rfl, _, rfl⟩ | ⟨x, rfl, rfl⟩ | ⟨_, hd, _⟩
  · obtain ⟨_, _, rfl⟩ := State.pop_eq_some_iff.1 hp
    exact ⟨fun _ => rfl, by simp [Instr.variant]⟩
  · exact ⟨fun _ => rfl, fun _ => rfl⟩
  · exact ⟨by simp [Instr.variant], by simp [Instr.variant]⟩
  · exact ⟨fun _ => rfl, fun _ => rfl⟩
  · exact ⟨fun _ => rfl, fun _ => rfl⟩
  · obtain ⟨hstack, hsp, -⟩ := hd.stack_sp_engine
    exact ⟨fun _ => hstack, fun _ => hsp⟩

/-- Settles O41: `execFrame` for `Mem`, `exec_stack_sp` for the stack. -/
theorem onlyListedVariantsWriteMemAndStack : Obligations.OnlyListedVariantsWriteMemAndStack :=
  fun _ _ _ h => ⟨(execFrame h).mem, exec_stack_sp h⟩

/-- Settles O42: by what an instruction can do. -/
theorem engineAfterInstr : Obligations.EngineAfterInstr := by
  unfold Obligations.EngineAfterInstr
  intro i s t h
  rcases exec_next_cases h with ⟨x, a, s', rfl, hp, rfl⟩ | ⟨x, rfl, hsp, rfl⟩ | ⟨nnn, s', rfl, hp, rfl⟩ |
    ⟨nnn, rfl, hsp, rfl⟩ | ⟨x, rfl, rfl⟩ | ⟨hv, hd, _⟩
  · obtain ⟨hpos, _, rfl⟩ := State.pop_eq_some_iff.1 hp
    simp [Instr.variant, Nat.pos_iff_ne_zero.1 hpos]
  · simp [Instr.variant, hsp]
  · obtain ⟨hlt, rfl⟩ := State.push_eq_some_iff.1 hp
    simp [Instr.variant, Nat.ne_of_lt hlt]
  · simp [Instr.variant, hsp]
  · simp [Instr.variant]
  · obtain ⟨-, -, he⟩ := hd.stack_sp_engine
    simp only [List.mem_cons, List.not_mem_nil, or_false, not_or] at hv
    simp [hv, he]

/-- Settles O43: `execFrame` for the variants that make no call. -/
theorem capabilityCallsByVariant : Obligations.CapabilityCallsByVariant := by
  unfold Obligations.CapabilityCallsByVariant
  intro i s t h
  have others := (execFrame h).calls
  cases i
  case cls x =>
    obtain rfl := eq_of_next (exec_cls x s) h
    rfl
  case drw x y n =>
    obtain ⟨rows, c, v', rest, ix, hx, -⟩ := drawReportsCollision x y n s
    obtain rfl := eq_of_next hx h
    exact ⟨_, _, rows, rfl⟩
  case skp x | sknp x =>
    obtain ⟨c, a, rest, ix, rfl⟩ := exec_skipKey_cases (x := x) (by simp) h
    exact ⟨c, rfl⟩
  case rnd x kk =>
    obtain ⟨b, v', rest, ix, hx, -⟩ := randomByteUnderMask x kk s
    obtain rfl := eq_of_next hx h
    rfl
  all_goals exact others (by simp [Instr.variant])

end Sys2Proof.Machine

/-! ## Proofs: what an instruction does not read (R30, R45) -/

namespace Sys2Proof.Machine

/-- Other contents of `Mem` and of the timers, all else the same. -/
def State.withMemTimers (s : State) (m : Memory) (d e : Byte) : State := { s with mem := m, dt := d, st := e }

/-- The variants that read or write `Mem` or a timer. -/
def memOrTimerVariants : List Variant := [.drw, .ldRegs, .ldB, .stRegs, .ldXDt, .ldDtX, .ldStX]

theorem State.firstRegs_congr {s s' : State} (h : s'.v = s.v) (n : Nat) : s'.firstRegs n = s.firstRegs n := by
  induction n with
  | zero => rfl
  | succ n ih => rw [State.firstRegs, State.firstRegs, ih, State.getV, State.getV, h]

theorem State.nextByte_withMemTimers (s : State) (m : Memory) (d e : Byte) :
    (s.withMemTimers m d e).nextByte = (s.nextByte.1, s.nextByte.2.withMemTimers m d e) := by
  have same : (s.withMemTimers m d e).entropyIn = s.entropyIn := rfl
  unfold State.nextByte
  rw [same]
  cases s.entropyIn <;> rfl

theorem State.isKeyDown_withMemTimers (s : State) (m : Memory) (d e : Byte) (c : KeyCode) :
    (s.withMemTimers m d e).isKeyDown c = ((s.isKeyDown c).1, (s.isKeyDown c).2.withMemTimers m d e) := by
  have same : (s.withMemTimers m d e).keyIn = s.keyIn := rfl
  unfold State.isKeyDown
  rw [same]
  cases s.keyIn <;> rfl

/-- An instruction that reads and writes neither `Mem` nor a timer does the same whatever they hold, and leaves them. -/
theorem exec_withMemTimers {i : Instr} {s t : State} (m : Memory) (d e : Byte)
    (hi : i.variant ∉ memOrTimerVariants) (h : exec i s = .next t) :
    exec i (s.withMemTimers m d e) = .next (t.withMemTimers m d e) := by
  cases i
  case drw | ldRegs | ldB | stRegs | ldXDt | ldDtX | ldStX => simp [Instr.variant, memOrTimerVariants] at hi
  case ret x =>
    rcases exec_ret_cases h with ⟨a, s', hp, rfl⟩ | ⟨h0, rfl⟩
    · obtain ⟨hs, rfl, rfl⟩ := State.pop_eq_some_iff.1 hp
      exact exec_ret_of_pos x (s := s.withMemTimers m d e) hs
    · exact exec_ret_of_empty x (s := s.withMemTimers m d e) h0
  case call nnn =>
    rcases exec_call_cases h with ⟨s', hp, rfl⟩ | ⟨h0, rfl⟩
    · obtain ⟨hs, rfl⟩ := State.push_eq_some_iff.1 hp
      rw [s.pc_add_two]
      exact exec_call_of_lt nnn (s := s.withMemTimers m d e) hs
    · exact exec_call_of_full nnn (s := s.withMemTimers m d e) h0
  case skp x =>
    cases hc : keyCodeOf s.cfg (s.getV x) with
    | none => rw [exec_skp_of_no_code hc] at h; cases h
    | some c =>
      rw [exec_skp_of_code (s := s.withMemTimers m d e) hc (s.isKeyDown_withMemTimers m d e c),
        eq_of_next h (exec_skp_of_code hc rfl)]
      rfl
  case sknp x =>
    cases hc : keyCodeOf s.cfg (s.getV x) with
    | none => rw [exec_sknp_of_no_code hc] at h; cases h
    | some c =>
      rw [exec_sknp_of_code (s := s.withMemTimers m d e) hc (s.isKeyDown_withMemTimers m d e c),
        eq_of_next h (exec_sknp_of_code hc rfl)]
      rfl
  case ldF x =>
    cases hc : keyCodeOf s.cfg (s.getV x) with
    | none => rw [exec_ldF_of_no_code hc] at h; cases h
    | some c =>
      rw [exec_ldF_of_code (s := s.withMemTimers m d e) hc, eq_of_next h (exec_ldF_of_code hc)]
      rfl
  case rnd x kk =>
    injection h with h
    subst h
    simp only [exec, execRnd, State.nextByte_withMemTimers]
    rfl
  all_goals
    injection h with h
    subst h
    rfl

/-- Settles O45: the instructions that touch neither `Mem` nor a timer by `exec_withMemTimers`; the two stores and the
timer accesses do not look at the old bytes. -/
theorem memSeenOnlyByItsReaders : Obligations.MemSeenOnlyByItsReaders := by
  unfold Obligations.MemSeenOnlyByItsReaders
  intro i s t m hi h
  by_cases hv : i.variant ∉ memOrTimerVariants
  · have frame := execFrame h
    have hdt : t.dt = s.dt := frame.dt fun e => hv (by simp [e, memOrTimerVariants])
    have hst : t.st = s.st := frame.st fun e => hv (by simp [e, memOrTimerVariants])
    refine ⟨m, (exec_withMemTimers m s.dt s.st hv h).trans ?_⟩
    rw [← hdt, ← hst]
    rfl
  · cases i
    case ldB x => exact ⟨_, by rw [exec_ldB, eq_of_next h (exec_ldB x s)]; rfl⟩
    case stRegs x =>
      exact ⟨_, by rw [exec_stRegs, eq_of_next h (exec_stRegs x s)]; rfl⟩
    case ldXDt | ldDtX | ldStX =>
      injection h with h
      subst h
      exact ⟨m, rfl⟩
    all_goals simp [Instr.variant, memOrTimerVariants] at hv hi

theorem State.loadFirstRegs_timerTick (s : State) (n : Nat) :
    s.timerTick.loadFirstRegs n = (s.loadFirstRegs n).timerTick := by
  induction n with
  | zero => rfl
  | succ n ih =>
    unfold State.loadFirstRegs
    rw [ih, s.loadFirstRegs_eq]
    rfl

theorem State.drawSprite_timerTick (s : State) (x y : Byte) (rows : List Byte) :
    s.timerTick.drawSprite x y rows = ((s.drawSprite x y rows).1, (s.drawSprite x y rows).2.timerTick) := by
  have same : s.timerTick.collisionIn = s.collisionIn := rfl
  unfold State.drawSprite
  rw [same]
  cases s.collisionIn <;> rfl

/-- Settles O46: the instructions that touch neither `Mem` nor a timer by `exec_withMemTimers`, with the timers counted
down; the others read the same bytes and registers before and after the tick. -/
theorem tickCommutesWithInstr : Obligations.TickCommutesWithInstr := by
  unfold Obligations.TickCommutesWithInstr
  intro i s t hi h
  by_cases hv : i.variant ∉ memOrTimerVariants
  · have frame := execFrame h
    have hdt : t.dt = s.dt := frame.dt fun e => hv (by simp [e, memOrTimerVariants])
    have hst : t.st = s.st := frame.st fun e => hv (by simp [e, memOrTimerVariants])
    have stores : ([.ldB, .stRegs] : List Variant) ⊆ memOrTimerVariants := by decide
    have hmem : t.mem = s.mem := frame.mem fun e => hv (stores e)
    refine (exec_withMemTimers s.mem (countDown s.dt) (countDown s.st) hv h).trans ?_
    rw [← hdt, ← hst, ← hmem]
    rfl
  · cases i
    case drw x y n =>
      injection h with h
      subst h
      exact congrArg (fun p => Host.Outcome.next (p.2.setV flagIx (collisionFlag p.1)).advance)
        (s.drawSprite_timerTick (s.getV x) (s.getV y) (s.spriteRows n))
    case ldRegs x => 
      rw [exec_ldRegs, eq_of_next h (exec_ldRegs x s), State.loadFirstRegs_timerTick]
      rfl
    case ldB x => rw [exec_ldB, eq_of_next h (exec_ldB x s)]; rfl
    case stRegs x =>
      rw [exec_stRegs, eq_of_next h (exec_stRegs x s), State.firstRegs_congr (s' := s.timerTick) (s := s) rfl]
      rfl
    all_goals simp [Instr.variant, memOrTimerVariants] at hv hi

end Sys2Proof.Machine

/-! ## Proofs: the program and the launch of a running core (R24, R46, R161) -/

namespace Sys2Proof.Machine

theorem State.stepCore_frame {s t : State} (h : s.stepCore = .next t) :
    t.prog = s.prog ∧ t.cfg = s.cfg ∧ t.phase = s.phase := by
  rcases State.stepCore_cases h with ⟨_, rfl⟩ | ⟨c, _, _, rfl⟩ | ⟨w, _, _, _, hx⟩
  · exact ⟨rfl, rfl, rfl⟩
  · exact ⟨rfl, rfl, rfl⟩
  · obtain ⟨hprog, hcfg, hphase, -⟩ := exec_frame hx
    exact ⟨hprog, hcfg, hphase⟩

theorem State.keyEvent_frame {s t : State} {k : KeyCode} (h : s.keyEvent k = .next t) :
    t.prog = s.prog ∧ t.cfg = s.cfg ∧ t.phase = s.phase := by
  rcases State.keyEvent_cases h with ⟨_, rfl⟩ | ⟨w, _, _, rfl⟩
  · exact ⟨rfl, rfl, rfl⟩
  · exact ⟨rfl, rfl, rfl⟩

theorem step_frame_running {s t : State} (hp : s.phase = .running) (h : step s = .next t) :
    t.prog = s.prog ∧ t.cfg = s.cfg ∧ t.phase = .running := by
  rcases step_cases_running hp h with ⟨_, h'⟩ | ⟨rest, _, rfl⟩ | ⟨rest, _, rfl⟩ | ⟨k, rest, _, h'⟩
  · obtain ⟨hprog, hcfg, hphase⟩ := State.stepCore_frame h'
    exact ⟨hprog, hcfg, hphase.trans hp⟩
  · exact ⟨rfl, rfl, rfl⟩
  · exact ⟨rfl, rfl, hp⟩
  · obtain ⟨hprog, hcfg, hphase⟩ := State.keyEvent_frame h'
    exact ⟨hprog, hcfg, hphase.trans hp⟩

/-- Settles O44: `step_frame_running`; a fetch reads `Prog` only. -/
theorem programNeverChangesOnceRunning : Obligations.ProgramNeverChangesOnceRunning := by
  unfold Obligations.ProgramNeverChangesOnceRunning
  intro s t hp h
  obtain ⟨hprog, hcfg, hphase⟩ := step_frame_running hp h
  exact ⟨hprog, hcfg, hphase, fun a => by rw [hprog]⟩

end Sys2Proof.Machine

/-! ## Proofs: no stop of a running core (R59, R144) -/

namespace Sys2Proof.Machine

open Sys2Proof.Config

/-- Every instruction answers a next state when every byte names a key code. -/
theorem exec_answers (i : Instr) {s : State} (hp : s.cfg.keyCodePolicy = .mask4) : ∃ t, exec i s = .next t := by
  have code (x : RegIx) : keyCodeOf s.cfg (s.getV x) = some (lowCode (s.getV x)) := keyCodeOf_of rfl (.inr hp)
  cases i
  case ret x =>
    rcases Nat.eq_zero_or_pos s.sp.val with empty | pos
    · exact ⟨_, exec_ret_of_empty x empty⟩
    · exact ⟨_, exec_ret_of_pos x pos⟩
  case call nnn =>
    rcases Nat.lt_or_eq_of_le (Nat.le_of_lt_succ s.sp.isLt) with room | full
    · exact ⟨_, exec_call_of_lt nnn room⟩
    · exact ⟨_, exec_call_of_full nnn full⟩
  case skp x => exact ⟨_, exec_skp_of_code (code x) rfl⟩
  case sknp x => exact ⟨_, exec_sknp_of_code (code x) rfl⟩
  case ldF x => exact ⟨_, exec_ldF_of_code (code x)⟩
  all_goals exact ⟨_, rfl⟩

theorem State.stepCore_of_not_ready {s : State} (h : s.engine ≠ .ready) : s.stepCore = .next s := by
  unfold State.stepCore
  split
  · rename_i he; exact absurd he h
  · rfl
  · rfl

theorem State.keyEvent_of_not_waiting {s : State} (k : KeyCode) (h : s.engine ≠ .awaitingKey) :
    s.keyEvent k = .next s := by
  unfold State.keyEvent
  split
  · rename_i he; exact absurd he h
  · rfl
  · rfl

theorem State.stepCore_of_fault {s : State} {c : FetchCause} (he : s.engine = .ready)
    (hf : fetch s.prog s.pc = .fault c) : s.stepCore = .next (s.raise (.fetchFault c)) := by
  simp only [State.stepCore, he, hf]

theorem State.stepCore_answers {s : State} (hp : s.cfg.keyCodePolicy = .mask4) (hs : s.cfg.decodeStrict = false)
    (ha : s.cfg.refuseFlagAlias = false) : ∃ t, s.stepCore = .next t := by
  by_cases he : s.engine = .ready
  · cases hf : fetch s.prog s.pc with
    | word w =>
      rw [State.stepCore_of_word he hf (cautionRefusal_eq_none (.inl hs) (.inl ha))]
      exact exec_answers _ hp
    | fault c => exact ⟨_, State.stepCore_of_fault he hf⟩
  · exact ⟨s, State.stepCore_of_not_ready he⟩

/-- A key event finds the waiting word. -/
theorem State.Inv.keyEvent_answers {s : State} (h : s.Inv) (hp : s.phase = .running) (k : KeyCode) :
    ∃ t, s.keyEvent k = .next t := by
  by_cases he : s.engine = .awaitingKey
  · obtain ⟨w, hw, -⟩ := h.waitsAtKeyWord hp he
    exact ⟨_, State.keyEvent_of_waiting k he hw⟩
  · exact ⟨s, State.keyEvent_of_not_waiting k he⟩

/-- Settles O10: by the next transaction. -/
theorem noTransactionStopsRunningCore : Obligations.NoTransactionStopsRunningCore := by
  unfold Obligations.NoTransactionStopsRunningCore
  intro s h hp noLoad hpol hstrict halias
  cases hl : s.agenda with
  | nil =>
    rw [step_of_atStep ⟨hp, .inl hl⟩]
    exact State.stepCore_answers (s := s.afterIssue) hpol hstrict halias
  | cons c rest =>
    rw [step_of_running hp hl]
    cases c with
    | load rom => exact absurd hl (noLoad rom rest)
    | reset => exact ⟨_, rfl⟩
    | step => exact State.stepCore_answers (s := s.setAgenda rest) hpol hstrict halias
    | timerTick => exact ⟨_, rfl⟩
    | keyEvent k => exact (h.setAgenda rest).keyEvent_answers hp k

end Sys2Proof.Machine

/-! ## Proofs: `PC` stays even (R16, R28) -/

namespace Sys2Proof.Machine

open Sys2Proof.Config

theorem even_add_two {a : Addr} (h : a.toNat % 2 = 0) : (a + 2).toNat % 2 = 0 := by
  have two : (2 : Addr).toNat = 2 := rfl
  rw [BitVec.toNat_add, two]
  omega

theorem even_skipIf {s : State} (h : s.pc.toNat % 2 = 0) (c : Bool) : (s.skipIf c).pc.toNat % 2 = 0 := by
  have four : s.pc + 4 = s.pc + 2 + 2 := by rw [BitVec.add_assoc]; rfl
  rw [State.skipIf_pc]
  split
  · rw [four]; exact even_add_two (even_add_two h)
  · exact even_add_two h

theorem State.StackHoldsReturns.even {s : State} (h : s.StackHoldsReturns) {j : Fin 16} (hj : j.val < s.sp.val) :
    s.stack[j].toNat % 2 = 0 := by
  obtain ⟨k, w, -, -, e⟩ := h j hj
  rw [e, BitVec.toNat_ofNat]
  simp only [memStart, insnBytes]
  omega

/-- An instruction whose target is even keeps an even `PC` even: it is the next address or the one after it, the
target, or a return address. -/
theorem exec_keeps_pc_even {i : Instr} {s t : State} (h : exec i s = .next t) (hpc : s.pc.toNat % 2 = 0)
    (hstack : s.StackHoldsReturns) (target : ∀ nnn, i = .jp nnn ∨ i = .call nnn → nnn.toNat % 2 = 0)
    (noJpV0 : i.variant ≠ .jpV0) : t.pc.toNat % 2 = 0 := by
  have others := (execFrame h).pc
  cases i
  case jp nnn =>
    injection h with h
    subst h
    exact target nnn (.inl rfl)
  case jpV0 nnn => exact absurd rfl noJpV0
  case call nnn =>
    rcases exec_call_cases h with ⟨s', _, rfl⟩ | ⟨_, rfl⟩
    · exact target nnn (.inr rfl)
    · exact hpc
  case ret x =>
    rcases exec_ret_cases h with ⟨a, s', hp, rfl⟩ | ⟨_, rfl⟩
    · obtain ⟨hpos, rfl, rfl⟩ := State.pop_eq_some_iff.1 hp
      exact hstack.even (j := ⟨s.sp.val - 1, by omega⟩) (Nat.sub_lt hpos Nat.one_pos)
    · exact hpc
  case seImm | sneImm | seReg | sneReg =>
    injection h with h
    subst h
    exact even_skipIf hpc _
  case skp x | sknp x =>
    simp only [exec, execSkp, execSknp] at h
    split at h
    · injection h with h
      subst h
      refine even_skipIf ?_ _
      rw [State.isKeyDown_eq]
      exact hpc
    · cases h
  case ldXK x =>
    injection h with h
    subst h
    exact hpc
  all_goals
    rw [others (by simp [Instr.variant])]
    exact even_add_two hpc

/-- A word of a program with even targets is no `Bnnn`, and a jump or call to an even address. -/
theorem evenTargets_decode {prog : List Word} (h : evenTargets prog = true) {w : Word} (hw : w ∈ prog) :
    (∀ nnn, decode w = .jp nnn ∨ decode w = .call nnn → nnn.toNat % 2 = 0) ∧ (decode w).variant ≠ .jpV0 := by
  have hw := List.all_eq_true.1 h w hw
  refine ⟨fun nnn hd => ?_, fun hv => ?_⟩
  · have field : nnnOf w = nnn := by
      rcases hd with hd | hd
      · rw [← encode_decode w, hd, encode, nnnOf_wordNNN]
      · rw [← encode_decode w, hd, encode, nnnOf_wordNNN]
    rcases hd with hd | hd
    · simpa [hd, Instr.variant, field] using hw
    · simpa [hd, Instr.variant, field] using hw
  · simp [hv] at hw

theorem State.Inv.stepCore_keeps_pc_even {s t : State} (h : s.Inv) (hp : s.phase = .running)
    (he : evenTargets s.prog = true) (hpc : s.pc.toNat % 2 = 0) (hs : s.stepCore = .next t) : t.pc.toNat % 2 = 0 := by
  rcases State.stepCore_cases hs with ⟨_, rfl⟩ | ⟨c, _, _, rfl⟩ | ⟨w, _, hw, _, hx⟩
  · exact hpc
  · exact hpc
  · obtain ⟨-, -, hmem⟩ := fetch_eq_word_iff.1 hw
    obtain ⟨target, noJpV0⟩ := evenTargets_decode he (List.mem_of_getElem? hmem)
    exact exec_keeps_pc_even hx hpc (h.stackHoldsReturns hp) target noJpV0

/-- Settles O54: by what a step can do; a return address is even because a program starts at `0x200`. -/
theorem evenTargetsKeepPcEven : Obligations.EvenTargetsKeepPcEven := by
  unfold Obligations.EvenTargetsKeepPcEven
  intro s t h hp he hpc hs
  rcases step_cases_running hp hs with ⟨_, h'⟩ | ⟨rest, _, rfl⟩ | ⟨rest, _, rfl⟩ | ⟨k, rest, _, h'⟩
  · exact (h.setAgenda s.agenda.tail).stepCore_keeps_pc_even hp he hpc h'
  · rw [State.resetCore_pc]; rfl
  · exact hpc
  · rcases State.keyEvent_cases h' with ⟨_, rfl⟩ | ⟨w, _, _, rfl⟩
    · exact hpc
    · exact even_add_two hpc

end Sys2Proof.Machine

/-! ## Proofs: the step driver (R141, R146, R147) -/

namespace Sys2Proof.Machine

open Sys2Proof.Config

theorem State.stepCore_of_refusal {s : State} {w : Word} {r : Refusal} (he : s.engine = .ready)
    (hw : fetch s.prog s.pc = .word w) (hc : cautionRefusal s.cfg (decode w) = some r) : s.stepCore = .refused r := by
  simp only [State.stepCore, he, hw, executeWord, hc]

/-- Settles O6: the fetch gives the word, and no caution switch refuses it. -/
theorem stepRunsDecodedInstr : Obligations.StepRunsDecodedInstr := by
  unfold Obligations.StepRunsDecodedInstr
  intro s w i hs he hw hd hstrict halias
  subst hd
  rw [step_of_atStep hs]
  exact State.stepCore_of_word (s := s.afterIssue) he hw (cautionRefusal_eq_none hstrict halias)

/-- Settles O7: by the three answers of a fetch. -/
theorem stepTakesFetchFault : Obligations.StepTakesFetchFault := by
  unfold Obligations.StepTakesFetchFault
  intro s hs he
  rw [step_of_atStep hs]
  exact ⟨fun odd => State.stepCore_of_fault (s := s.afterIssue) he (fetch_eq_misaligned_iff.2 odd),
    fun even outside => State.stepCore_of_fault (s := s.afterIssue) he (fetch_eq_outOfProgram_iff.2 ⟨even, outside⟩)⟩

/-- Settles O8: by the engine state. -/
theorem unheededTransactionsChangeNothing : Obligations.UnheededTransactionsChangeNothing := by
  unfold Obligations.UnheededTransactionsChangeNothing
  refine fun s => ⟨fun hs he => ?_, fun k rest hp ha he => ?_⟩
  · rw [step_of_atStep hs]
    exact State.stepCore_of_not_ready (s := s.afterIssue) he
  · rw [step_of_running hp ha]
    exact State.keyEvent_of_not_waiting (s := s.setAgenda rest) k he

/-- Settles O9: each switch is read before `exec`, `DecodeStrict` first. -/
theorem cautionSwitchesRefuse : Obligations.CautionSwitchesRefuse := by
  unfold Obligations.CautionSwitchesRefuse
  intro s w hs he hw
  rw [step_of_atStep hs]
  refine ⟨fun strict odd => ?_, fun lax careful aliased => ?_⟩
  · exact State.stepCore_of_refusal (s := s.afterIssue) he hw
      (by simp [cautionRefusal, State.afterIssue, strict, odd])
  · exact State.stepCore_of_refusal (s := s.afterIssue) he hw
      (by simp [cautionRefusal, State.afterIssue, lax, careful, aliased])

end Sys2Proof.Machine

/-! ## Proofs: ticks, reset and launch (R38, R150, R160 to R163) -/

namespace Sys2Proof.Machine

open Sys2Proof.Config

/-- Settles O47: by induction on the number of ticks. -/
theorem ticksCountDownToZero : Obligations.TicksCountDownToZero := by
  unfold Obligations.TicksCountDownToZero
  intro n
  induction n with
  | zero =>
    intro s rest _ ha
    refine ⟨s.dt, s.st, ?_, rfl, rfl⟩
    rw [runFor_zero, ← show s.agenda = rest from ha]
  | succ n ih =>
    intro s rest hp ha
    have tick : step s = .next (s.setAgenda (List.replicate n .timerTick ++ rest)).timerTick :=
      step_of_running hp ha
    obtain ⟨d, e, hrun, hd, he⟩ := ih (s.setAgenda (List.replicate n .timerTick ++ rest)).timerTick rest hp rfl
    refine ⟨d, e, (runFor_succ_of_next tick).trans hrun, ?_, ?_⟩
    · rw [hd, State.timerTick_eq, toNat_countDown, State.setAgenda_dt]
      omega
    · rw [he, State.timerTick_eq, toNat_countDown, State.setAgenda_st]
      omega

theorem step_of_reset {s : State} {rest : List Transaction} (hp : s.phase = .running ∨ s.phase = .loaded)
    (ha : s.agenda = .reset :: rest) : step s = .next (s.setAgenda rest).resetCore := by
  rw [step_of_cons ha]
  rcases hp with hp | hp
  · simp only [State.transact, State.setAgenda_phase, hp, State.transactRunning]
  · simp only [State.transact, State.setAgenda_phase, hp]

theorem step_of_load {s : State} {rom : List Byte} {rest : List Transaction} (hp : s.phase = .noProgram)
    (ha : s.agenda = .load rom :: rest) : step s = .next ((s.setAgenda rest).loadRom rom) := by
  rw [step_of_cons ha]
  simp only [State.transact, State.setAgenda_phase, hp]

/-- Settles O48: `State.resetCore` in either phase. -/
theorem resetRestoresResetValues : Obligations.ResetRestoresResetValues := by
  unfold Obligations.ResetRestoresResetValues
  intro s rest hp ha
  exact ⟨_, step_of_reset hp ha, s.resetCore_getV⟩

theorem maxProgramLen_eq (p : Params) : p.maxProgramLen = 4096 - 512 - p.displayRegionSize := rfl

/-- Settles O49: by what a `Load` does. -/
theorem loadErrorsWriteNothing : Obligations.LoadErrorsWriteNothing := by
  unfold Obligations.LoadErrorsWriteNothing
  intro s rom rest hp ha
  rw [step_of_load hp ha, ← maxProgramLen_eq]
  rcases (s.setAgenda rest).loadRom_cases rom with ⟨odd, e⟩ | ⟨even, long, e⟩ | ⟨even, short, e⟩
  · exact ⟨fun _ => by rw [e]; rfl, fun even => by omega⟩
  · exact ⟨fun odd => by omega, fun _ _ => by rw [e]; rfl⟩
  · exact ⟨fun odd => by omega, fun _ long => absurd long (Nat.not_lt.2 short)⟩

theorem offsetFrom_memStart {j : Nat} (h : 0x200 + j < 4096) : offsetFrom 0x200 (BitVec.ofNat 12 (0x200 + j)) = j := by
  have start : (0x200 : Addr).toNat = 0x200 := rfl
  rw [offsetFrom, BitVec.toNat_sub, BitVec.toNat_ofNat, start]
  omega

/-- The program that a rom becomes is fetched word by word from `0x200` on (R31, R38, R40). -/
theorem fetch_wordsOfRom {rom : List Byte} {k : Nat} {l r : Byte} (hlen : rom.length ≤ 4096 - 512)
    (hl : rom[2 * k]? = some l) (hr : rom[2 * k + 1]? = some r) :
    fetch (wordsOfRom rom) (BitVec.ofNat 12 (0x200 + 2 * k)) =
      .word (BitVec.ofNat 16 (l.toNat * 256 + r.toNat)) := by
  obtain ⟨hlt, -⟩ := List.getElem?_eq_some_iff.1 hr
  have address : (BitVec.ofNat 12 (0x200 + 2 * k)).toNat = 0x200 + 2 * k := by
    rw [BitVec.toNat_ofNat]
    omega
  have entry : (0x200 + 2 * k - 0x200) / 2 = k := by omega
  rw [← wordOfBytes_eq_ofNat, fetch_eq_word_iff, address, entry]
  exact ⟨by omega, by omega, getElem?_wordsOfRom hl hr⟩

/-- The bytes of a rom are read where `Load` wrote them. -/
theorem read_rom {m : Memory} {rom : List Byte} {j : Nat} {b : Byte} (hm : m.wf = true)
    (hlen : rom.length ≤ 4096 - 512) (hj : rom[j]? = some b) :
    (m.writeBytes 0x200 rom).read (BitVec.ofNat 12 (0x200 + j)) = b := by
  obtain ⟨hlt, -⟩ := List.getElem?_eq_some_iff.1 hj
  rw [Memory.read_writeBytes hm _ _ _ (hlen.trans (by decide)), offsetFrom_memStart (by omega), hj]
  rfl

/-- Every byte outside the rom's place reads as before the `Load`. -/
theorem read_outside_rom {m : Memory} {rom : List Byte} {a : Addr} (hm : m.wf = true)
    (hlen : rom.length ≤ 4096 - 512) (ha : a.toNat < 0x200 ∨ 0x200 + rom.length ≤ a.toNat) :
    (m.writeBytes 0x200 rom).read a = m.read a := by
  refine Memory.read_writeBytes_outside hm (hlen.trans (by decide)) ?_
  have start : (0x200 : Addr).toNat = 0x200 := rfl
  have := a.isLt
  rw [offsetFrom, BitVec.toNat_sub, start]
  omega

/-- The state that a `Load` within bounds leaves (R38). -/
def State.withRom (s : State) (rom : List Byte) : State :=
  { s with mem := s.mem.writeBytes 0x200 rom, prog := wordsOfRom rom, phase := .loaded }

theorem step_of_load_within_bounds {s : State} {rom : List Byte} {rest : List Transaction} (hp : s.phase = .noProgram)
    (ha : s.agenda = .load rom :: rest) (even : rom.length % 2 = 0)
    (hlen : rom.length ≤ 4096 - 512 - s.cfg.displayRegionSize) : step s = .next ((s.setAgenda rest).withRom rom) := by
  rw [step_of_load hp ha]
  rcases (s.setAgenda rest).loadRom_cases rom with ⟨odd, -⟩ | ⟨-, long, -⟩ | ⟨-, -, e⟩
  · omega
  · exact absurd long (Nat.not_lt.2 hlen)
  · rw [e, State.withRom]

/-- Settles O50: the two steps, and the program and memory that `Load` leaves. -/
theorem loadThenResetRunsProgram : Obligations.LoadThenResetRunsProgram := by
  unfold Obligations.LoadThenResetRunsProgram
  intro s rom rest hp hm ha even hlen
  have fits : rom.length ≤ 4096 - 512 := hlen.trans (Nat.sub_le _ _)
  have load := step_of_load_within_bounds hp ha even hlen
  have reset : step ((s.setAgenda (.reset :: rest)).withRom rom) = .next _ := step_of_reset (.inr rfl) rfl
  exact ⟨_, (runFor_succ_of_next load).trans (runFor_succ_of_next reset), rfl, rfl, rfl, rfl,
    length_wordsOfRom rom, fun k l r => fetch_wordsOfRom fits, fun j b => read_rom hm fits,
    fun a => read_outside_rom hm fits⟩

/-- Settles O51: by the phase and the transaction. -/
theorem launchOrderIsEnforced : Obligations.LaunchOrderIsEnforced := by
  unfold Obligations.LaunchOrderIsEnforced
  intro s t rest ha
  rw [step_of_cons ha]
  refine ⟨fun notLoad hp => ?_, fun e hp => ?_, fun notLoad notReset hp => ?_, fun rom ht hp => ?_⟩
  · cases t with
    | load rom => exact absurd rfl (notLoad rom)
    | _ => simp only [State.transact, State.setAgenda_phase, hp]
  · simp only [State.transact, State.setAgenda_phase, hp]
  · cases t with
    | load rom => exact absurd rfl (notLoad rom)
    | reset => exact absurd rfl notReset
    | _ => simp only [State.transact, State.setAgenda_phase, hp]
  · subst ht
    rcases hp with hp | hp <;> simp only [State.transact, State.setAgenda_phase, hp, State.transactRunning]

end Sys2Proof.Machine

/-! ## Proofs: memories and listings as data (R30, R41, R62) -/

namespace Sys2Proof.Machine

open Sys2Proof.Config

theorem Memory.readAt_cons_self (k : Nat) (b : Byte) (m : Memory) : Memory.readAt ((k, b) :: m) k = b := if_pos rfl

theorem Memory.readAt_cons_of_lt {k a : Nat} (b : Byte) (m : Memory) (h : k < a) :
    Memory.readAt ((k, b) :: m) a = m.readAt a := by
  rw [Memory.readAt, if_neg (by omega), if_neg (by omega)]

/-- A memory in canonical form whose first cell is `k` does not read like one that lists nothing up to `k`. -/
theorem Memory.readAt_ne {lo k : Nat} {b : Byte} {t m : Memory} (h : Memory.wfFrom lo ((k, b) :: t) = true)
    (hm : Memory.wfFrom (k + 1) m = true) : Memory.readAt ((k, b) :: t) k ≠ m.readAt k := by
  obtain ⟨-, -, hb, -⟩ := Memory.wfFrom_cons.1 h
  rwa [Memory.readAt_cons_self, Memory.readAt_of_lt hm (Nat.lt_succ_self k)]

theorem Memory.ext_of_readAt {lo : Nat} {m m' : Memory} (h : Memory.wfFrom lo m = true)
    (h' : Memory.wfFrom lo m' = true) (alike : ∀ a < memSize, m.readAt a = m'.readAt a) : m = m' := by
  induction m generalizing lo m' with
  | nil =>
    cases m' with
    | nil => rfl
    | cons c' t' =>
      obtain ⟨k', b'⟩ := c'
      obtain ⟨-, hk', -⟩ := Memory.wfFrom_cons.1 h'
      exact absurd (alike k' hk').symm (Memory.readAt_ne h' rfl)
  | cons c t ih =>
    obtain ⟨k, b⟩ := c
    obtain ⟨hlo, hk, hb, ht⟩ := Memory.wfFrom_cons.1 h
    cases m' with
    | nil => exact absurd (alike k hk) (Memory.readAt_ne h rfl)
    | cons c' t' =>
      obtain ⟨k', b'⟩ := c'
      obtain ⟨hlo', hk', hb', ht'⟩ := Memory.wfFrom_cons.1 h'
      rcases Nat.lt_trichotomy k k' with lt | rfl | gt
      · exact absurd (alike k hk) (Memory.readAt_ne h (Memory.wfFrom_cons.2 ⟨lt, hk', hb', ht'⟩))
      · have same : b = b' := by simpa only [Memory.readAt_cons_self] using alike k hk
        subst same
        refine congrArg _ (ih ht ht' fun a ha => ?_)
        rcases Nat.lt_or_ge k a with above | below
        · simpa only [Memory.readAt_cons_of_lt b _ above] using alike a ha
        · rw [Memory.readAt_of_lt ht (Nat.lt_succ_of_le below), Memory.readAt_of_lt ht' (Nat.lt_succ_of_le below)]
      · exact absurd (alike k' hk').symm (Memory.readAt_ne h' (Memory.wfFrom_cons.2 ⟨gt, hk, hb, ht⟩))

/-- Settles O59: `Memory.ext_of_readAt`, cell by cell. -/
theorem memoriesThatReadAlikeAreEqual : Obligations.MemoriesThatReadAlikeAreEqual := by
  unfold Obligations.MemoriesThatReadAlikeAreEqual
  intro m m' h h' alike
  refine Memory.ext_of_readAt h h' fun a ha => ?_
  have at_a : (BitVec.ofNat 12 a).toNat = a := Nat.mod_eq_of_lt ha
  simpa only [Memory.read, at_a] using alike (BitVec.ofNat 12 a)

/-- Settles O60: by induction on the words; the cursor of the rest is 2 further. -/
theorem listingCursorAdvancesByTwo : Obligations.ListingCursorAdvancesByTwo := by
  unfold Obligations.ListingCursorAdvancesByTwo
  intro prog
  induction prog with
  | nil => exact fun cursor => ⟨rfl, fun k w hk => by simp at hk⟩
  | cons first rest ih =>
    intro cursor
    obtain ⟨hlen, hlines⟩ := ih (cursor + 2)
    refine ⟨congrArg (· + 1) hlen, fun k w hk => ?_⟩
    cases k with
    | zero =>
      injection hk with hk
      subst hk
      simp [listing]
    | succ k =>
      have further : cursor + BitVec.ofNat 16 (2 * (k + 1)) = cursor + 2 + BitVec.ofNat 16 (2 * k) := by
        rw [Nat.mul_add, Nat.add_comm, BitVec.ofNat_add, BitVec.add_assoc]
        rfl
      rw [further]
      exact hlines k w hk

end Sys2Proof.Machine

/-! ## Proofs: runs in which nothing but the timers moves (R134, R148, R156, R175) -/

namespace Sys2Proof.Machine

open Sys2Proof.Config

/-- Nothing but the timers and the agenda differs. -/
def SameButTimers (s t : State) : Prop := t = { s with dt := t.dt, st := t.st, agenda := t.agenda }

theorem SameButTimers.refl (s : State) : SameButTimers s s := rfl

theorem SameButTimers.eq {s t : State} (h : SameButTimers s t) :
    t = { s with dt := t.dt, st := t.st, agenda := t.agenda } := h

theorem SameButTimers.trans {s t u : State} (h : SameButTimers s t) (h' : SameButTimers t u) : SameButTimers s u := by
  unfold SameButTimers
  rw [h'.eq, h.eq]

theorem SameButTimers.setAgenda (s : State) (l : List Transaction) : SameButTimers s (s.setAgenda l) := rfl

theorem SameButTimers.timerTick (s : State) (l : List Transaction) : SameButTimers s (s.setAgenda l).timerTick := rfl

theorem SameButTimers.phase {s t : State} (h : SameButTimers s t) : t.phase = s.phase := by rw [h.eq]
theorem SameButTimers.engine {s t : State} (h : SameButTimers s t) : t.engine = s.engine := by rw [h.eq]
theorem SameButTimers.prog {s t : State} (h : SameButTimers s t) : t.prog = s.prog := by rw [h.eq]
theorem SameButTimers.pc {s t : State} (h : SameButTimers s t) : t.pc = s.pc := by rw [h.eq]

section Runs

variable (P : State → Prop)

/-- A property that every step keeps, moving nothing but the timers, is kept by every run, which moves nothing else. -/
theorem runFor_keeps (keep : ∀ s u, P s → step s = .next u → SameButTimers s u ∧ P u) {n : Nat} {s t : State}
    (hs : P s) (h : runFor n s = .next t) : SameButTimers s t ∧ P t := by
  induction n generalizing s with
  | zero =>
    obtain rfl := eq_of_next (runFor_zero s) h
    exact ⟨SameButTimers.refl s, hs⟩
  | succ n ih =>
    obtain ⟨u, hu, hrun⟩ := runFor_succ_cases h
    obtain ⟨hsame, hPu⟩ := keep s u hs hu
    obtain ⟨hsame', hPt⟩ := ih hPu hrun
    exact ⟨hsame.trans hsame', hPt⟩

/-- When such steps never stop the model, neither does a run. -/
theorem runFor_answers (go : ∀ s, P s → ∃ u, step s = .next u ∧ SameButTimers s u ∧ P u) (n : Nat) {s : State}
    (hs : P s) : ∃ t, runFor n s = .next t ∧ SameButTimers s t ∧ P t := by
  have keep (s u : State) (hs : P s) (h : step s = .next u) : SameButTimers s u ∧ P u := by
    obtain ⟨u', hu', hsame⟩ := go s hs
    obtain rfl := eq_of_next hu' h
    exact hsame
  have answers : ∃ t, runFor n s = .next t := by
    induction n generalizing s with
    | zero => exact ⟨s, runFor_zero s⟩
    | succ n ih =>
      obtain ⟨u, hu, -, hPu⟩ := go s hs
      rw [runFor_succ_of_next hu]
      exact ih hPu
  obtain ⟨t, ht⟩ := answers
  exact ⟨t, ht, runFor_keeps P keep hs ht⟩

end Runs

/-! ### Halted -/

/-- A running core that has halted with `e`, with no `Reset` to come. -/
def HaltedForGood (e : ExecFault) (s : State) : Prop :=
  s.phase = .running ∧ s.engine = .halted e ∧ noReset s.agenda

theorem HaltedForGood.step {e : ExecFault} {s u : State} (h : HaltedForGood e s) (hs : step s = .next u) :
    SameButTimers s u ∧ HaltedForGood e u := by
  obtain ⟨hp, he, hr⟩ := h
  have notReady : s.engine ≠ .ready := by simp [he]
  have notWaiting : s.engine ≠ .awaitingKey := by simp [he]
  have rest_noReset {c : Transaction} {rest : List Transaction} (ha : s.agenda = c :: rest) : noReset rest :=
    fun hmem => hr (by rw [ha]; exact List.mem_cons_of_mem c hmem)
  rcases step_cases_running hp hs with ⟨_, h'⟩ | ⟨rest, ha, rfl⟩ | ⟨rest, ha, rfl⟩ | ⟨k, rest, ha, h'⟩
  · obtain rfl := eq_of_next (State.stepCore_of_not_ready (s := s.afterIssue) notReady) h'
    exact ⟨SameButTimers.setAgenda s _, hp, he, fun hmem => hr (List.mem_of_mem_tail hmem)⟩
  · exact absurd (by rw [ha]; exact List.mem_cons_self) hr
  · exact ⟨SameButTimers.timerTick s rest, hp, he, rest_noReset ha⟩
  · obtain rfl := eq_of_next (State.keyEvent_of_not_waiting (s := s.setAgenda rest) k notWaiting) h'
    exact ⟨SameButTimers.setAgenda s rest, hp, he, rest_noReset ha⟩

/-- Settles O55: each transaction without `Reset` leaves a halted core halted. -/
theorem haltedIsAbsorbingWithoutReset : Obligations.HaltedIsAbsorbingWithoutReset := by
  unfold Obligations.HaltedIsAbsorbingWithoutReset
  intro n s t e hp he hr h
  exact (runFor_keeps (HaltedForGood e) (fun _ _ hs hu => hs.step hu) ⟨hp, he, hr⟩ h).1

/-! ### Waiting for a key, and standing at a self-jump -/

section Idle

variable (Rest : State → Prop)

/-- A running core in a state of the given kind, with only `Step`s and ticks to come. -/
def IdleIn (s : State) : Prop := s.phase = .running ∧ Rest s ∧ onlyStepsAndTicks s.agenda

variable {Rest}
variable (still : ∀ s, Rest s → s.stepCore = .next s) (timers : ∀ s t, SameButTimers s t → Rest s → Rest t)
include still timers

/-- In a state that a `Step` leaves as it is, whatever the timers, a `Step` or tick moves the timers at most. -/
theorem IdleIn.step {s : State} (h : IdleIn Rest s) : ∃ u, step s = .next u ∧ SameButTimers s u ∧ IdleIn Rest u := by
  obtain ⟨hp, hr, ha⟩ := h
  have moved {u : State} (hsame : SameButTimers s u) (hu : onlyStepsAndTicks u.agenda) :
      SameButTimers s u ∧ IdleIn Rest u :=
    ⟨hsame, hsame.phase.trans hp, timers s u hsame hr, hu⟩
  have stays (l : List Transaction) : (s.setAgenda l).stepCore = .next (s.setAgenda l) :=
    still _ (timers s _ (SameButTimers.setAgenda s l) hr)
  cases hl : s.agenda with
  | nil =>
    refine ⟨s.afterIssue, ?_, moved (SameButTimers.setAgenda s _) fun c hc => ha c (List.mem_of_mem_tail hc)⟩
    rw [step_of_atStep ⟨hp, .inl hl⟩]
    exact stays _
  | cons c rest =>
    rw [hl] at ha
    have hrest : onlyStepsAndTicks rest := fun d hd => ha d (List.mem_cons_of_mem c hd)
    rw [step_of_running hp hl]
    rcases ha c List.mem_cons_self with rfl | rfl
    · exact ⟨_, stays rest, moved (SameButTimers.setAgenda s rest) hrest⟩
    · exact ⟨_, rfl, moved (SameButTimers.timerTick s rest) hrest⟩

end Idle

theorem awaitingKey_still {s : State} (h : s.engine = .awaitingKey) : s.stepCore = .next s :=
  State.stepCore_of_not_ready (by simp [h])

/-- Settles O56: a `Step` leaves a waiting core as it is, a tick moves its timers. -/
theorem keyWaitOutlastsStepsAndTicks : Obligations.KeyWaitOutlastsStepsAndTicks := by
  unfold Obligations.KeyWaitOutlastsStepsAndTicks
  intro n s hp he ha
  have go (s : State) := IdleIn.step (Rest := fun s => s.engine = .awaitingKey) (s := s)
    (fun _ => awaitingKey_still) fun _ _ hsame he => hsame.engine.trans he
  obtain ⟨t, hrun, hsame, -⟩ := runFor_answers _ go n ⟨hp, he, ha⟩
  exact ⟨t, hrun, hsame⟩

theorem State.terminal_iff {s : State} :
    s.terminal = true ↔ s.engine = .ready ∧ ∃ w, fetch s.prog s.pc = .word w ∧ decode w = .jp s.pc := by
  unfold State.terminal
  cases hf : fetch s.prog s.pc <;> simp

/-- A self-jump jumps to where it stands, and no caution switch refuses it. -/
theorem terminal_still {s : State} (h : s.terminal = true) : s.stepCore = .next s := by
  obtain ⟨he, w, hw, hd⟩ := State.terminal_iff.1 h
  rw [State.stepCore_of_word he hw (by rw [hd]; exact cautionRefusal_eq_none (.inr rfl) (.inr rfl)), hd]
  rfl

theorem terminal_timers {s t : State} (h : SameButTimers s t) (hs : s.terminal = true) : t.terminal = true := by
  rw [State.terminal_iff, h.engine, h.prog, h.pc]
  exact State.terminal_iff.1 hs

/-- Settles O58: a `Step` leaves a core at a self-jump as it is, a tick moves its timers. -/
theorem terminalStateStays : Obligations.TerminalStateStays := by
  unfold Obligations.TerminalStateStays
  intro n s hp ht ha
  have go (s : State) := IdleIn.step (Rest := fun s => s.terminal = true) (s := s)
    (fun _ => terminal_still) fun _ _ => terminal_timers
  obtain ⟨t, hrun, hsame, -, hterminal, -⟩ := runFor_answers _ go n ⟨hp, ht, ha⟩
  exact ⟨t, hrun, hterminal, hsame⟩

end Sys2Proof.Machine

/-! ## Proofs: what a fair host brings about (R172) -/

namespace Sys2Proof.Machine

/-- A count that never rises from `n` on, and again and again falls by one, reaches 0 and stays there. -/
theorem eventually_zero {f : Nat → Nat} {n : Nat} (noRise : ∀ m, n ≤ m → f (m + 1) ≤ f m)
    (falls : ∀ k, ∃ m, k ≤ m ∧ f (m + 1) = f m - 1) : ∃ k, n ≤ k ∧ ∀ m, k ≤ m → f m = 0 := by
  have antitone {a b : Nat} (ha : n ≤ a) (hab : a ≤ b) : f b ≤ f a := by
    induction b, hab using Nat.le_induction with
    | base => exact Nat.le_refl _
    | succ b hb ih => exact (noRise b (ha.trans hb)).trans ih
  have reaches (c : Nat) : ∀ k, n ≤ k → f k ≤ c → ∃ k', n ≤ k' ∧ f k' = 0 := by
    induction c with
    | zero => exact fun k hk hc => ⟨k, hk, Nat.le_zero.1 hc⟩
    | succ c ih =>
      intro k hk hc
      obtain ⟨m, hm, fall⟩ := falls k
      have := antitone hk hm
      exact ih (m + 1) (by omega) (by omega)
  obtain ⟨k, hk, zero⟩ := reaches (f n) n (Nat.le_refl n) (Nat.le_refl _)
  exact ⟨k, hk, fun m hm => Nat.le_zero.1 (zero ▸ antitone hk hm)⟩

/-- The word at `PC` is not of the variant. -/
def NotAt (v : Variant) (s : State) : Prop := ∀ w, fetch s.prog s.pc = .word w → (decode w).variant ≠ v

theorem State.stepCore_timers {s t : State} (h : s.stepCore = .next t) :
    (NotAt .ldDtX s → t.dt = s.dt) ∧ (NotAt .ldStX s → t.st = s.st) := by
  rcases State.stepCore_cases h with ⟨_, rfl⟩ | ⟨c, _, _, rfl⟩ | ⟨w, _, hw, _, hx⟩
  · exact ⟨fun _ => rfl, fun _ => rfl⟩
  · exact ⟨fun _ => rfl, fun _ => rfl⟩
  · exact ⟨fun h => (execFrame hx).dt (h w hw), fun h => (execFrame hx).st (h w hw)⟩

/-- No transaction but a `Step` of `Fx15` raises `DT`, none but one of `Fx18` raises `ST`. -/
theorem step_timers_le {s t : State} (hp : s.phase = .running) (h : step s = .next t) :
    (NotAt .ldDtX s → t.dt.toNat ≤ s.dt.toNat) ∧ (NotAt .ldStX s → t.st.toNat ≤ s.st.toNat) := by
  rcases step_cases_running hp h with ⟨_, h'⟩ | ⟨rest, _, rfl⟩ | ⟨rest, _, rfl⟩ | ⟨k, rest, _, h'⟩
  · obtain ⟨hdt, hst⟩ := State.stepCore_timers h'
    exact ⟨fun hv => (congrArg BitVec.toNat (hdt hv)).le, fun hv => (congrArg BitVec.toNat (hst hv)).le⟩
  · exact ⟨fun _ => Nat.zero_le _, fun _ => Nat.zero_le _⟩
  · have falls (b : Byte) : (countDown b).toNat ≤ b.toNat := (toNat_countDown b).trans_le (Nat.sub_le _ _)
    exact ⟨fun _ => falls s.dt, fun _ => falls s.st⟩
  · rcases State.keyEvent_cases h' with ⟨_, rfl⟩ | ⟨w, _, _, rfl⟩
    · exact ⟨fun _ => Nat.le_refl _, fun _ => Nat.le_refl _⟩
    · exact ⟨fun _ => Nat.le_refl _, fun _ => Nat.le_refl _⟩

section HostRuns

variable {h : Schedule} {σ : Nat → State} {n : Nat} (run : HostRun h σ) (hp : (σ 0).phase = .running)
include run hp

theorem hostRun_tick {m : Nat} (tick : h m = .timerTick) : σ (m + 1) = ((σ m).setAgenda []).timerTick := by
  have issued : ((σ m).setAgenda [h m]).agenda = [.timerTick] := by rw [tick]; rfl
  have hm : ((σ m).setAgenda [h m]).phase = .running := hostRun_running run hp m
  exact eq_of_next (run m) (step_of_running hm issued)

theorem hostRun_timers_le (m : Nat) :
    (NotAt .ldDtX (σ m) → (σ (m + 1)).dt.toNat ≤ (σ m).dt.toNat) ∧
    (NotAt .ldStX (σ m) → (σ (m + 1)).st.toNat ≤ (σ m).st.toNat) :=
  step_timers_le (s := (σ m).setAgenda [h m]) (hostRun_running run hp m) (run m)

/-- Under weakly fair ticks, a timer that does not rise from some point on reaches 0 and stays there. -/
theorem hostRun_timer_ends (timer : State → Byte)
    (ticks : ∀ s : State, timer (s.setAgenda []).timerTick = countDown (timer s))
    (fair : ticksWeaklyFair h) (noRise : ∀ m, n ≤ m → (timer (σ (m + 1))).toNat ≤ (timer (σ m)).toNat) :
    ∃ k, n ≤ k ∧ ∀ m, k ≤ m → timer (σ m) = 0 := by
  have falls (k : Nat) : ∃ m, k ≤ m ∧ (timer (σ (m + 1))).toNat = (timer (σ m)).toNat - 1 := by
    obtain ⟨m, hm, tick⟩ := fair k
    exact ⟨m, hm, by rw [hostRun_tick run hp tick, ticks, toNat_countDown]⟩
  obtain ⟨k, hk, zero⟩ := eventually_zero (f := fun m => (timer (σ m)).toNat) noRise falls
  exact ⟨k, hk, fun m hm => BitVec.eq_of_toNat_eq (zero m hm)⟩

end HostRuns

/-- A wait goes on or ends in `Ready`; a key event ends it. -/
theorem step_of_waiting {s t : State} (hp : s.phase = .running) (he : s.engine = .awaitingKey) (h : step s = .next t) :
    (t.engine = .awaitingKey ∧ ∀ k rest, s.agenda ≠ .keyEvent k :: rest) ∨ t.engine = .ready := by
  rcases step_cases_running hp h with ⟨⟨_, next⟩, h'⟩ | ⟨rest, _, rfl⟩ | ⟨rest, ha, rfl⟩ |
    ⟨k, rest, _, h'⟩
  · obtain rfl := eq_of_next (awaitingKey_still (s := s.afterIssue) he) h'
    refine .inl ⟨he, fun k rest ha => ?_⟩
    rcases next with hl | ⟨_, hl⟩
    · rw [hl] at ha; cases ha
    · rw [hl] at ha; cases ha
  · exact .inr rfl
  · exact .inl ⟨he, fun k rest' ha' => by rw [ha] at ha'; cases ha'⟩
  · rcases State.keyEvent_cases h' with ⟨hn, _⟩ | ⟨w, _, _, rfl⟩
    · exact absurd he hn
    · exact .inr rfl

/-- Until a wait has ended it goes on. -/
theorem hostRun_waits_or_ready {h : Schedule} {σ : Nat → State} {n : Nat} (run : HostRun h σ)
    (hp : (σ 0).phase = .running) (he : (σ n).engine = .awaitingKey) {m : Nat} (hm : n ≤ m) :
    (σ m).engine = .awaitingKey ∨ ∃ k, n < k ∧ (σ k).engine = .ready := by
  induction m, hm using Nat.le_induction with
  | base => exact .inl he
  | succ m hm ih =>
    rcases ih with wait | ended
    · rcases step_of_waiting (s := (σ m).setAgenda [h m]) (hostRun_running run hp m) wait (run m) with ⟨on, _⟩ | ready
      · exact .inl on
      · exact .inr ⟨m + 1, Nat.lt_succ_of_le hm, ready⟩
    · exact .inr ended

theorem hostRun_wait_ends {h : Schedule} {σ : Nat → State} {n : Nat} (run : HostRun h σ)
    (hp : (σ 0).phase = .running) (he : (σ n).engine = .awaitingKey) (comes : keyEventComes h n) :
    ∃ k, n < k ∧ (σ k).engine = .ready := by
  obtain ⟨m, k, hm, key⟩ := comes
  rcases hostRun_waits_or_ready run hp he hm with wait | ended
  · rcases step_of_waiting (s := (σ m).setAgenda [h m]) (hostRun_running run hp m) wait (run m) with ⟨_, no⟩ | ready
    · exact absurd (by rw [key]; rfl) (no k [])
    · exact ⟨m + 1, Nat.lt_succ_of_le hm, ready⟩
  · exact ended

/-- Settles O57: a timer that nothing sets never rises and falls at every tick; a wait goes on until its key comes. -/
theorem fairHostEndsTimerAndKeyWaits : Obligations.FairHostEndsTimerAndKeyWaits := by
  unfold Obligations.FairHostEndsTimerAndKeyWaits
  intro h σ n run hp
  refine ⟨fun fair noSet => ?_, fun fair noSet => ?_, hostRun_wait_ends run hp⟩
  · exact hostRun_timer_ends run hp State.dt (fun _ => rfl) fair fun m hm =>
      (hostRun_timers_le run hp m).1 fun w => noSet m w hm
  · exact hostRun_timer_ends run hp State.st (fun _ => rfl) fair fun m hm =>
      (hostRun_timers_le run hp m).2 fun w => noSet m w hm

end Sys2Proof.Machine
